-- ==== Sys2Proof/Word.lean ====
section
/-! DEFINITION. The word types of the core (00_scope.md R6, R9) and their plainest conversions. -/

namespace Sys2Proof

/-- A cell: "a 16-bit unsigned storage unit" (00_scope.md R6, CELL_WIDTH). -/
abbrev Cell := BitVec 16

/-- A value 0..32767: 15 significant bits (00_scope.md R6, VALUE_RANGE). -/
abbrev Value := BitVec 15

/-- A register index 0..7 (10_state.md R21). -/
abbrev RegIdx := Fin 8

/-- A byte of the program image (70_reset_and_hazards.md R213). -/
abbrev Byte := BitVec 8

/-- `zext_16(v)` of 00_scope.md R9: the cell with bit 15 = 0. -/
def toCell (v : Value) : Cell := v.setWidth 16

end Sys2Proof
end

