-- ==== Sys2Proof/Syntax.lean ====
section
/-! DEFINITION. The 22 instructions as syntax: one constructor per row of spec/opcode_table.json (30_encoding.md R80). -/

namespace Sys2Proof

/-- An operand cell, by the three disjoint classes of 30_encoding.md R71. -/
inductive Operand
  /-- 0..32767: the number itself. -/
  | lit (v : Value)
  /-- 32768..32775: the register `raw - 32768`. -/
  | reg (i : RegIdx)
  /-- 32776..65535: "never valid as an operand". The raw cell is kept for the fault record (10_state.md R40). -/
  | invalid (raw : Cell)
  deriving DecidableEq, Repr

/-- The role of an operand position (30_encoding.md R72). -/
inductive Role
  /-- `reg`: a register destination (R76). -/
  | dst
  /-- `val`: a value (R75). -/
  | val
  deriving DecidableEq, Repr

/-- The closed set of 22 instructions (00_scope.md R1, 30_encoding.md R80), operands in position order.
`inp` is the table's `in` (a word Lean keeps for itself). -/
inductive Instr
  | halt
  | set (dst src : Operand)
  | push (src : Operand)
  | pop (dst : Operand)
  | eq (dst a b : Operand)
  | gt (dst a b : Operand)
  | jmp (addr : Operand)
  | jt (cond addr : Operand)
  | jf (cond addr : Operand)
  | add (dst a b : Operand)
  | mult (dst a b : Operand)
  | mod (dst a b : Operand)
  | and (dst a b : Operand)
  | or (dst a b : Operand)
  | not (dst a : Operand)
  | rmem (dst addr : Operand)
  | wmem (addr src : Operand)
  | call (addr : Operand)
  | ret
  | out (ch : Operand)
  | inp (dst : Operand)
  | noop
  deriving DecidableEq, Repr

end Sys2Proof
end

