-- ==== Sys2Proof/WellFormed.lean ====
section
/-! DEFINITION. Well-formed instructions: every operand is legal in its role (30_encoding.md R72, R80, R81). -/

namespace Sys2Proof

/-- R76: only a register reference may stand in a `reg` position. -/
def Operand.isDst : Operand → Bool
  | .reg _ => true
  | .lit _ | .invalid _ => false

/-- R75: a literal or a register reference may stand in a `val` position. -/
def Operand.isVal : Operand → Bool
  | .lit _ | .reg _ => true
  | .invalid _ => false

/-- An operand is legal in a role (30_encoding.md R72). -/
def Operand.legalIn (o : Operand) : Role → Bool
  | .dst => o.isDst
  | .val => o.isVal

/-- Every operand of the instruction is legal in its role (30_encoding.md R80, R81). An instruction that is not
well-formed still decodes, and running it raises InvalidOperand (R182, log entry 14). -/
def Instr.wf : Instr → Bool
  | .halt | .ret | .noop => true
  | .push a | .jmp a | .call a | .out a => a.isVal
  | .pop d | .inp d => d.isDst
  | .jt a b | .jf a b | .wmem a b => a.isVal && b.isVal
  | .set d a | .not d a | .rmem d a => d.isDst && a.isVal
  | .eq d a b | .gt d a b | .add d a b | .mult d a b | .mod d a b | .and d a b | .or d a b =>
    d.isDst && a.isVal && b.isVal

/-- The class of 30_encoding.md R71 is the right one: an `invalid` operand holds a cell 32776..65535. Every operand the
decoder gives is so. -/
def Operand.classed : Operand → Bool
  | .lit _ | .reg _ => true
  | .invalid raw => 32775 < raw.toNat

end Sys2Proof
end

