-- ==== Sys2Proof/Decode.lean ====
section
/-! DEFINITION. The decoder (30_encoding.md R70, R71, R79, R80), total on any cells and rejecting by name, and the encoder. -/

namespace Sys2Proof

/-- Why cells are no instruction. -/
inductive DecodeError
  /-- The first cell is none of 0..21 (30_encoding.md R79, R81). -/
  | invalidOpcode (raw : Cell)
  /-- Fewer cells than the opcode's length (30_encoding.md R80, R82). -/
  | truncated
  deriving DecidableEq, Repr

/-- The class of an operand cell, by its whole value (30_encoding.md R71). -/
def classify (raw : Cell) : Operand :=
  if raw.toNat ≤ 32767 then .lit (BitVec.ofNat 15 raw.toNat)
  else if raw.toNat ≤ 32775 then .reg (Fin.ofNat 8 (raw.toNat - 32768))
  else .invalid raw

/-- The rest of an instruction with one operand (formats V and R of 30_encoding.md R73). -/
def decodeOne (mk : Operand → Instr) : List Cell → Except DecodeError (Instr × List Cell)
  | a :: rest => .ok (mk (classify a), rest)
  | [] => .error .truncated

/-- The rest of an instruction with two operands (formats VV and RV). -/
def decodeTwo (mk : Operand → Operand → Instr) : List Cell → Except DecodeError (Instr × List Cell)
  | a :: b :: rest => .ok (mk (classify a) (classify b), rest)
  | _ => .error .truncated

/-- The rest of an instruction with three operands (format RVV). -/
def decodeThree (mk : Operand → Operand → Operand → Instr) : List Cell → Except DecodeError (Instr × List Cell)
  | a :: b :: c :: rest => .ok (mk (classify a) (classify b) (classify c), rest)
  | _ => .error .truncated

/-- The opcode map of 30_encoding.md R80, on the raw first cell (R79); answers the instruction and the cells after it. -/
def decode : List Cell → Except DecodeError (Instr × List Cell)
  | [] => .error .truncated
  | op :: rest =>
    match op.toNat with
    | 0 => .ok (.halt, rest)
    | 1 => decodeTwo .set rest
    | 2 => decodeOne .push rest
    | 3 => decodeOne .pop rest
    | 4 => decodeThree .eq rest
    | 5 => decodeThree .gt rest
    | 6 => decodeOne .jmp rest
    | 7 => decodeTwo .jt rest
    | 8 => decodeTwo .jf rest
    | 9 => decodeThree .add rest
    | 10 => decodeThree .mult rest
    | 11 => decodeThree .mod rest
    | 12 => decodeThree .and rest
    | 13 => decodeThree .or rest
    | 14 => decodeTwo .not rest
    | 15 => decodeTwo .rmem rest
    | 16 => decodeTwo .wmem rest
    | 17 => decodeOne .call rest
    | 18 => .ok (.ret, rest)
    | 19 => decodeOne .out rest
    | 20 => decodeOne .inp rest
    | 21 => .ok (.noop, rest)
    | _ => .error (.invalidOpcode op)

/-- The opcode of an instruction (30_encoding.md R80). -/
def Instr.opcode : Instr → Cell
  | .halt => 0
  | .set _ _ => 1
  | .push _ => 2
  | .pop _ => 3
  | .eq _ _ _ => 4
  | .gt _ _ _ => 5
  | .jmp _ => 6
  | .jt _ _ => 7
  | .jf _ _ => 8
  | .add _ _ _ => 9
  | .mult _ _ _ => 10
  | .mod _ _ _ => 11
  | .and _ _ _ => 12
  | .or _ _ _ => 13
  | .not _ _ => 14
  | .rmem _ _ => 15
  | .wmem _ _ => 16
  | .call _ => 17
  | .ret => 18
  | .out _ => 19
  | .inp _ => 20
  | .noop => 21

/-- The operands in position order, each with its role (30_encoding.md R72, R80). -/
def Instr.operands : Instr → List (Role × Operand)
  | .halt | .ret | .noop => []
  | .push a | .jmp a | .call a | .out a => [(.val, a)]
  | .pop d | .inp d => [(.dst, d)]
  | .jt a b | .jf a b | .wmem a b => [(.val, a), (.val, b)]
  | .set d a | .not d a | .rmem d a => [(.dst, d), (.val, a)]
  | .eq d a b | .gt d a b | .add d a b | .mult d a b | .mod d a b | .and d a b | .or d a b =>
    [(.dst, d), (.val, a), (.val, b)]

/-- The cell of an operand (30_encoding.md R71; 10_state.md R23: register i is the cell 32768 + i). -/
def Operand.encode : Operand → Cell
  | .lit v => toCell v
  | .reg i => BitVec.ofNat 16 (32768 + i.val)
  | .invalid raw => raw

/-- The cells of an instruction: its opcode, then its operand cells (30_encoding.md R70). -/
def encode (i : Instr) : List Cell := i.opcode :: i.operands.map fun ro => ro.2.encode

/-- The four cells of a word numbered as spec/opcode_table.json numbers it: bit 0 is the least significant bit of the
first cell, later cells' bits count on; bits from `nbits` up are 0. Four cells is the longest instruction (R70). -/
def tableCells (nbits w : Nat) : List Cell :=
  [0, 1, 2, 3].map fun k => BitVec.ofNat 16 (w % 2 ^ nbits / 65536 ^ k)

/-- The instruction the decoder reads from a table word (operand cells beyond `nbits` are zeros). -/
def decodeTableWord (nbits w : Nat) : Option Instr :=
  match decode (tableCells nbits w) with
  | .ok (i, _) => some i
  | .error _ => none

end Sys2Proof
end

