-- ==== Sys2Proof/Config.lean ====
section
/-! DEFINITION. The parameters the source leaves open (00_scope.md R7) and the free value INIT_MEM_TAIL. -/

namespace Sys2Proof

/-- IN_EOF_POLICY (00_scope.md R7, 44_io.md R165): what `in` does at end of input. -/
inductive EofPolicy
  | fault
  | block
  deriving DecidableEq, Repr

/-- HIGH_WRITE_POLICY (00_scope.md R7, 10_state.md R25): a register write of a value above 32767. -/
inductive HighWritePolicy
  | fault
  | mask15
  deriving DecidableEq, Repr

/-- The parameters "each a named argument of the model" (00_scope.md R7). They stand in `State.cfg`, so that
every statement about every state holds for every setting (log entry 4). -/
structure Params where
  /-- STACK_CAPACITY: `none` is unbounded, `some n` is n entries (10_state.md R32, log entry 16). -/
  stackCapacity : Option Nat
  inEofPolicy : EofPolicy
  highWritePolicy : HighWritePolicy
  deriving DecidableEq, Repr

/-- The defaults of 00_scope.md R7. -/
def Params.default : Params := ⟨none, .fault, .fault⟩

/-- INIT_MEM_TAIL (00_scope.md R7, 70_reset_and_hazards.md R214): what a cell holds that neither the loaded image nor an
instruction has written. A FREE VALUE: "The model takes them as part of the launch state. It does not take them as 0."
It has no body, so no proof can rest on a number (DESIGN CHOICE, log entry 3). -/
opaque Config.initMemTail : Value → Cell

end Sys2Proof
end

