-- ==== Sys2Proof/Machine/State.lean ====
section
/-! DEFINITION. The state of the core (10_state.md R20) as plain data, its reset value, and the reasons a step can stop. -/

namespace Sys2Proof.Machine

/-- Memory (20_memory.md R50) as the cells written so far, by address. What an unlisted address holds is said in ONE place,
`State.memRead`. Canonical form: `Memory.wf` (log entry 2). -/
abbrev Memory := List (Nat × Cell)

/-- Canonical form: addresses strictly rising and inside 0..32767. Looking up an unlisted address gives no value, so no
entry can equal it and equal lookups are equal lists (log entry 2). -/
abbrev Memory.wf (m : Memory) : Prop :=
  m.Pairwise (fun c d => c.1 < d.1) ∧ ∀ c ∈ m, c.1 < 32768

/-- `run_state` (10_state.md R37). -/
inductive RunState
  | running
  /-- `WaitInput(d)`: waiting for the input of an `in` with destination d. `eofTaken` is the memory of 44_io.md R161 under
  IN_EOF_POLICY = block: EOF was taken in this wait and "InTake is never asked again" (DEDUCED, log entry 9). -/
  | waitInput (d : RegIdx) (eofTaken : Bool)
  | halted
  | faulted
  deriving DecidableEq, Repr

/-- The fault kinds (60_exceptions.md R180). -/
inductive FaultKind
  | none
  | invalidOpcode
  | invalidOperand
  | stackUnderflow
  | addressOutOfRange
  | divideByZero
  | registerValueOutOfRange
  | inputExhausted
  | stackOverflow
  deriving DecidableEq, Repr

/-- The fault record (10_state.md R40). `kind` is shown to the host as the 4-bit code `FaultKind.code`. -/
structure FaultRecord where
  kind : FaultKind
  ipc : Cell
  addr : Cell
  opcode : Cell
  raw : Cell
  reg : RegIdx
  deriving DecidableEq, Repr

/-- The fault record after reset: "kind 0, all fields 0" (10_state.md R40). -/
def FaultRecord.cleared : FaultRecord := ⟨.none, 0, 0, 0, 0, 0⟩

/-- An event the host offers on the input port (10_state.md R46). -/
inductive InEvent
  | value (c : Cell)
  | eof
  deriving DecidableEq, Repr

/-- One entry of the core's interleaved I/O behaviour (44_io.md R167). -/
inductive IoEvent
  /-- `OutWrite(v)`, a 15-bit value (44_io.md R162). -/
  | out (v : Value)
  /-- An event taken by `InTake` (44_io.md R163). -/
  | took (e : InEvent)
  deriving DecidableEq, Repr

/-- Every piece of state the spec gives the core (10_state.md R20), its parameters (00_scope.md R7) and its two streams
(44_io.md R162, R163). -/
structure State where
  /-- STACK_CAPACITY, IN_EOF_POLICY, HIGH_WRITE_POLICY (00_scope.md R7, log entry 4). No step changes them. -/
  cfg : Params
  /-- 32768 cells of code and data (20_memory.md R50). -/
  mem : Memory
  /-- `x[0..7]` (10_state.md R21), typed as 15-bit values as R22 permits (log entry 1). -/
  x : Vector Value 8
  /-- The program counter, 16 bits (10_state.md R27, 00_scope.md R8). -/
  pc : Cell
  /-- The stack, bottom first, as 95_test_vectors.md writes it (10_state.md R31). -/
  stack : List Cell
  /-- `run_state` (10_state.md R37). -/
  runState : RunState
  /-- The fault record (10_state.md R40). -/
  fault : FaultRecord
  /-- The input events offered and not yet taken, oldest first (10_state.md R46, log entry 7). -/
  input : List InEvent
  /-- The I/O trace, oldest first (44_io.md R162, R163, R167, log entry 8). -/
  io : List IoEvent
  deriving DecidableEq, Repr

/-- The machine right after reset (70_reset_and_hazards.md R210), with the default parameters (00_scope.md R7), no memory cell
known (R214, log entry 3), no input event offered and no I/O done. -/
def State.reset : State where
  cfg := Params.default
  mem := []
  x := Vector.replicate 8 0
  pc := 0
  stack := []
  runState := .running
  fault := FaultRecord.cleared
  input := []
  io := []

/-- The instruction in progress: its opcode cell's address `ipc` (30_encoding.md R87) and its raw opcode cell. Transient:
it stands in no state, only in the fault record a raise fills (10_state.md R40). -/
structure Current where
  ipc : Cell
  opcode : Cell
  deriving DecidableEq, Repr

/-- What a part of an instruction gives: a value and the state to go on from, or the Faulted state that a raise left
(60_exceptions.md R190: "it ends the current instruction"). -/
inductive Resolved (α : Type) where
  | ok (a : α) (s : State)
  | raised (s : State)
  deriving DecidableEq, Repr

/-- Reasons the model stops with a fault of its own: NONE. Every error of this hardware is taken as the spec describes it, a
NEXT state with `run_state` = Faulted and the fault record filled (60_exceptions.md R190, log entry 5), and the core keeps
its state in Halted and Faulted (R201, log entry 6). Safe: the model never stops where the core goes on. -/
inductive Fault
  deriving DecidableEq, Repr

/-- Reasons the model gives an instruction no meaning. -/
inductive Refusal
  /-- An instruction whose meaning is not written yet, raised by its arm of `exec`; no arm raises it now. Safe: the model
  stops where the core goes on. -/
  | notModelled (mnemonic : String)
  deriving DecidableEq, Repr

/-- The answer of a meaning and of a step. -/
abbrev Result := Host.Outcome State Fault Refusal

/-- Why the loader rejects an image (60_exceptions.md R189); reset is then never released. -/
inductive LoadError
  /-- More than 32768 words (70_reset_and_hazards.md R212). -/
  | imageTooLarge
  /-- An odd number of bytes (70_reset_and_hazards.md R215). -/
  | imageMalformed
  deriving DecidableEq, Repr

/-- What a stopped core shows of its state (10_state.md R48). -/
structure Inspection where
  mem : Memory
  x : Vector Value 8
  stack : List Cell
  pc : Cell
  deriving DecidableEq, Repr

/-- What the host reads on the status port (10_state.md R48). -/
structure StatusView where
  runState : RunState
  fault : Option FaultRecord
  inspection : Option Inspection
  deriving DecidableEq, Repr

end Sys2Proof.Machine
end

