-- ==== Sys2Proof/Machine/Ops.lean ====
section
/-! DEFINITION. The named operations over registers, memory, pc and stack, and taking a fault (10_state.md, 20_memory.md,
60_exceptions.md R190). -/

namespace Sys2Proof.Machine

/-- The 4-bit code of a fault kind (60_exceptions.md R180). -/
def FaultKind.code : FaultKind → BitVec 4
  | .none => 0
  | .invalidOpcode => 1
  | .invalidOperand => 2
  | .stackUnderflow => 3
  | .addressOutOfRange => 4
  | .divideByZero => 5
  | .registerValueOutOfRange => 6
  | .inputExhausted => 7
  | .stackOverflow => 8

/-- `raise K(info)` (60_exceptions.md R190): enter Faulted and fill the fault record. Nothing else changes: no handler runs,
no vector is taken. There is no return from it (R193); only `assertReset` leaves Faulted. -/
def raise (k : FaultKind) (cur : Current) (addr raw : Cell) (reg : RegIdx) (s : State) : State :=
  { s with runState := .faulted, fault := ⟨k, cur.ipc, addr, cur.opcode, raw, reg⟩ }

/-- Go on with the next part of the instruction, or keep the Faulted state of a raise (60_exceptions.md R190). -/
def Resolved.andThen {α : Type} (r : Resolved α) (k : α → State → State) : State :=
  match r with
  | .ok a s => k a s
  | .raised s => s

/-- pc after one more cell is consumed; pc does not wrap at 32767 (10_state.md R28, R29). -/
def State.advance (s : State) : State := { s with pc := s.pc + 1 }

/-- `pc <- t` (10_state.md R27). -/
def State.jump (s : State) (t : Cell) : State := { s with pc := t }

/-- `addr` of an execute-time fault: "the address of the last operand cell consumed, or ipc if there is none"
(10_state.md R40), which is the cell before pc (DEDUCED from R28, log entry 12). -/
def State.lastCell (s : State) : Cell := s.pc - 1

/-- `x[i]` (10_state.md R21). -/
def State.reg (s : State) (i : RegIdx) : Value := s.x[i]

/-- `x[i] <- v`, the write inside WriteReg (10_state.md R25). -/
def State.setReg (s : State) (i : RegIdx) (v : Value) : State := { s with x := s.x.set i.val v i.isLt }

/-- What WriteReg stores of a 16-bit value: the value itself up to 32767; above, nothing under HIGH_WRITE_POLICY = fault and
v mod 32768 under mask15 (10_state.md R25). -/
def storedValue (p : HighWritePolicy) (v : Cell) : Option Value :=
  if v.toNat ≤ 32767 then some (BitVec.ofNat 15 v.toNat)
  else match p with
    | .fault => none
    | .mask15 => some (BitVec.ofNat 15 (v.toNat % 32768))

/-- `WriteReg(d, v)` (10_state.md R25), the one way an instruction writes a register: into `s`, or, where it raises
RegisterValueOutOfRange (60_exceptions.md R186), the Faulted state over `s₀`, the state without the instruction's other
effects (30_encoding.md R88, R164 for `in`). -/
def writeReg (cur : Current) (d : RegIdx) (v : Cell) (s₀ s : State) : State :=
  match storedValue s.cfg.highWritePolicy v with
  | some w => s.setReg d w
  | none => raise .registerValueOutOfRange cur s₀.lastCell v d s₀

/-- The cell listed at an address, if one is. -/
def Memory.lookup : Memory → Nat → Option Cell
  | [], _ => none
  | (b, w) :: rest, a => if b = a then some w else Memory.lookup rest a

/-- Put a cell at an address, keeping the addresses strictly rising. -/
def Memory.write : Memory → Nat → Cell → Memory
  | [], a, v => [(a, v)]
  | (b, w) :: rest, a, v =>
    if a < b then (a, v) :: (b, w) :: rest
    else if a = b then (a, v) :: rest
    else (b, w) :: Memory.write rest a v

/-- Put cells at consecutive addresses from `a` up; an address outside 0..32767 takes none (20_memory.md R50). -/
def Memory.place (m : Memory) (a : Nat) : List Cell → Memory
  | [] => m
  | v :: vs => Memory.place (if a < 32768 then m.write a v else m) (a + 1) vs

/-- `MemRead(a, 1)` (20_memory.md R53): the latest write to the cell, or its initial contents (R60). The initial contents of
a cell that nothing listed are the free value INIT_MEM_TAIL (70_reset_and_hazards.md R214, log entry 3). -/
def State.memRead (s : State) (a : Value) : Cell := (s.mem.lookup a.toNat).getD (Config.initMemTail a)

/-- `MemWrite(a, 1, v)` (20_memory.md R54). -/
def State.memWrite (s : State) (a : Value) (v : Cell) : State := { s with mem := s.mem.write a.toNat v }

/-- `Push(v)` (10_state.md R33); a full stack raises StackOverflow (60_exceptions.md R188). -/
def pushStack (cur : Current) (v : Cell) (s : State) : Resolved Unit :=
  if s.cfg.stackCapacity = some s.stack.length then .raised (raise .stackOverflow cur s.lastCell 0 0 s)
  else .ok () { s with stack := s.stack ++ [v] }

/-- `Pop()` (10_state.md R34); an empty stack raises StackUnderflow (60_exceptions.md R183). -/
def popStack (cur : Current) (s : State) : Resolved Cell :=
  match s.stack.getLast? with
  | none => .raised (raise .stackUnderflow cur s.lastCell 0 0 s)
  | some v => .ok v { s with stack := s.stack.dropLast }

end Sys2Proof.Machine
end

