-- ==== Sys2Proof/Machine/Operands.lean ====
section
/-! DEFINITION. Operand decode during execution: FetchCell's check, ResolveValue and ResolveRegister (30_encoding.md R74 to R78),
and the decode prefix of each of the six formats (R73). -/

namespace Sys2Proof.Machine

/-- The check of `FetchCell` (30_encoding.md R74): pc is past the last cell. -/
def State.pastEnd (s : State) : Bool := 32767 < s.pc.toNat

/-- The fetch of one operand cell (30_encoding.md R74) and its class's use: `use` gives the operand's result, or none where
the role does not admit it, and InvalidOperand is raised (R75, R76, 60_exceptions.md R182). Either way one cell is consumed,
except where the fetch itself raises AddressOutOfRange (R77, R184). -/
def fetchOperand {α : Type} (cur : Current) (o : Operand) (use : State → Operand → Option α) (s : State) : Resolved α :=
  if s.pastEnd then .raised (raise .addressOutOfRange cur s.pc 0 0 s)
  else match use s o with
    | some a => .ok a s.advance
    | none => .raised (raise .invalidOperand cur s.pc o.encode 0 s.advance)

/-- The value of a value operand (30_encoding.md R75). -/
def valueOf (s : State) : Operand → Option Value
  | .lit v => some v
  | .reg i => some (s.reg i)
  | .invalid _ => none

/-- The index a register-destination operand names; the register is not read (30_encoding.md R76). -/
def indexOf (_ : State) : Operand → Option RegIdx
  | .reg i => some i
  | .lit _ | .invalid _ => none

/-- `ResolveValue()` (30_encoding.md R75). -/
def resolveValue (cur : Current) (o : Operand) (s : State) : Resolved Value := fetchOperand cur o valueOf s

/-- `ResolveRegister()` (30_encoding.md R76). -/
def resolveRegister (cur : Current) (o : Operand) (s : State) : Resolved RegIdx := fetchOperand cur o indexOf s

/-- Format N (30_encoding.md R73): only the opcode cell. `s` stands at the opcode cell, which the step has checked. -/
def formatN (op : Cell) (s : State) (k : Current → State → State) : State :=
  k ⟨s.pc, op⟩ s.advance

/-- Format V. -/
def formatV (op : Cell) (a : Operand) (s : State) (k : Current → Value → State → State) : State :=
  formatN op s fun cur s => (resolveValue cur a s).andThen (k cur)

/-- Format R. -/
def formatR (op : Cell) (d : Operand) (s : State) (k : Current → RegIdx → State → State) : State :=
  formatN op s fun cur s => (resolveRegister cur d s).andThen (k cur)

/-- Format VV: operands in position order (30_encoding.md R78). -/
def formatVV (op : Cell) (a b : Operand) (s : State) (k : Current → Value → Value → State → State) : State :=
  formatV op a s fun cur u s => (resolveValue cur b s).andThen (k cur u)

/-- Format RV. -/
def formatRV (op : Cell) (d a : Operand) (s : State) (k : Current → RegIdx → Value → State → State) : State :=
  formatR op d s fun cur i s => (resolveValue cur a s).andThen (k cur i)

/-- Format RVV. -/
def formatRVV (op : Cell) (d a b : Operand) (s : State)
    (k : Current → RegIdx → Value → Value → State → State) : State :=
  formatRV op d a s fun cur i u s => (resolveValue cur b s).andThen (k cur i u)

end Sys2Proof.Machine
end

