-- ==== Sys2Proof/Machine/Cycle.lean ====
section
/-! DEFINITION. Fetch and opcode decode of one instruction (30_encoding.md R74, R79, R86), and the steps of a core with none. -/

namespace Sys2Proof.Machine

/-- The cell at an address as the decoder's window sees it. Past address 32767 there is no cell; the window shows 0 there, and
no execution uses it, since the operand's own fetch raises AddressOutOfRange first (30_encoding.md R74, log entry 11). -/
def State.cellAt (s : State) (a : Nat) : Cell :=
  if a < 32768 then s.memRead (BitVec.ofNat 15 a) else 0

/-- The cells an instruction at pc may span, four at most (30_encoding.md R70). -/
def State.window (s : State) : List Cell :=
  [s.cellAt s.pc.toNat, s.cellAt (s.pc.toNat + 1), s.cellAt (s.pc.toNat + 2), s.cellAt (s.pc.toNat + 3)]

/-- The opcode fetch and decode of `Step()` (30_encoding.md R86): the instruction at pc, or the Faulted state of
AddressOutOfRange (60_exceptions.md R184, opcode field 0, pc unchanged) or InvalidOpcode (R181, pc = ipc + 1). -/
def fetchInstr (s : State) : Except State Instr :=
  if s.pastEnd then .error (raise .addressOutOfRange ⟨s.pc, 0⟩ s.pc 0 0 s)
  else match decode s.window with
    | .ok (i, _) => .ok i
    | .error _ =>
      let raw := s.cellAt s.pc.toNat
      .error (raise .invalidOpcode ⟨s.pc, raw⟩ s.pc raw 0 s.advance)

/-- Halted and Faulted have no step and keep all state until reset (30_encoding.md R86, 60_exceptions.md R201): the model
answers the same state (DESIGN CHOICE, log entry 6). -/
def terminalStep (s : State) : Result := .next s

end Sys2Proof.Machine
end

