-- ==== Sys2Proof/Machine/Flags.lean ====
section
/-! DEFINITION. The core has no flags (10_state.md R41): a compare gives 1 or 0 to a register, and a conditional jump tests a
value for zero. These are those two computations. -/

namespace Sys2Proof.Machine

/-- What a compare writes: exactly 1 or 0 (43_alu.md R148). -/
def truth (b : Bool) : Cell := if b then 1 else 0

/-- `eq` (43_alu.md R140). -/
def compareEq (a b : Value) : Cell := truth (a.toNat == b.toNat)

/-- `gt`, strict and unsigned (43_alu.md R141). -/
def compareGt (a b : Value) : Cell := truth (b.toNat < a.toNat)

/-- The test of `jt` and `jf`: any non-zero value is true (41_control.md R102, R103). -/
def isNonZero (c : Value) : Bool := c != 0

end Sys2Proof.Machine
end

