-- ==== Sys2Proof/Machine/Alu.lean ====
section
/-! DEFINITION. The ALU and its instructions (43_alu.md R140 to R149). Each meaning starts at the opcode cell (pc = ipc). -/

namespace Sys2Proof.Machine

/-- The exact sum, then modulo 32768 (43_alu.md R142, R149). -/
def aluAdd (a b : Value) : Cell := BitVec.ofNat 16 ((a.toNat + b.toNat) % 32768)

/-- The exact product, then modulo 32768 (43_alu.md R143, R149). -/
def aluMult (a b : Value) : Cell := BitVec.ofNat 16 (a.toNat * b.toNat % 32768)

/-- The unsigned remainder; asked only with b ≠ 0 (43_alu.md R144). -/
def aluMod (a b : Value) : Cell := BitVec.ofNat 16 (a.toNat % b.toNat)

/-- AND on the 16-bit representation (43_alu.md R145). -/
def aluAnd (a b : Value) : Cell := toCell a &&& toCell b

/-- OR on the 16-bit representation (43_alu.md R146). -/
def aluOr (a b : Value) : Cell := toCell a ||| toCell b

/-- The complement restricted to 15 bits: a XOR 0x7FFF (43_alu.md R147). -/
def aluNot (a : Value) : Cell := toCell a ^^^ 0x7FFF

/-- The shape of the two-source ALU instructions: decode prefix, then WriteReg of the result (43_alu.md). -/
def aluBinary (op : Cell) (f : Value → Value → Cell) (dst a b : Operand) (s : State) : State :=
  formatRVV op dst a b s fun cur d u v s => writeReg cur d (f u v) s s

/-- `eq dst, a, b` (43_alu.md R140). -/
def execEq (dst a b : Operand) (s : State) : Result := .next (aluBinary 4 compareEq dst a b s)

/-- `gt dst, a, b` (43_alu.md R141). -/
def execGt (dst a b : Operand) (s : State) : Result := .next (aluBinary 5 compareGt dst a b s)

/-- `add dst, a, b` (43_alu.md R142). -/
def execAdd (dst a b : Operand) (s : State) : Result := .next (aluBinary 9 aluAdd dst a b s)

/-- `mult dst, a, b` (43_alu.md R143). -/
def execMult (dst a b : Operand) (s : State) : Result := .next (aluBinary 10 aluMult dst a b s)

/-- `mod dst, a, b` (43_alu.md R144): a zero divisor raises DivideByZero (60_exceptions.md R185). -/
def execMod (dst a b : Operand) (s : State) : Result :=
  .next (formatRVV 11 dst a b s fun cur d u v s =>
    if v = 0 then raise .divideByZero cur s.lastCell 0 0 s
    else writeReg cur d (aluMod u v) s s)

/-- `and dst, a, b` (43_alu.md R145). -/
def execAnd (dst a b : Operand) (s : State) : Result := .next (aluBinary 12 aluAnd dst a b s)

/-- `or dst, a, b` (43_alu.md R146). -/
def execOr (dst a b : Operand) (s : State) : Result := .next (aluBinary 13 aluOr dst a b s)

/-- `not dst, a` (43_alu.md R147). -/
def execNot (dst a : Operand) (s : State) : Result :=
  .next (formatRV 14 dst a s fun cur d u s => writeReg cur d (aluNot u) s s)

end Sys2Proof.Machine
end

