-- ==== Sys2Proof/Machine/Control.lean ====
section
/-! DEFINITION. The control instructions (41_control.md R100 to R106). Each meaning starts at the opcode cell (pc = ipc). -/

namespace Sys2Proof.Machine

/-- `halt` (41_control.md R100). -/
def execHalt (s : State) : Result :=
  .next (formatN 0 s fun _ s => { s with runState := .halted })

/-- `jmp addr` (41_control.md R101). -/
def execJmp (addr : Operand) (s : State) : Result :=
  .next (formatV 6 addr s fun _ t s => s.jump (toCell t))

/-- `jt cond, addr` (41_control.md R102): addr is decoded whether or not the jump is taken (30_encoding.md R89). -/
def execJt (cond addr : Operand) (s : State) : Result :=
  .next (formatVV 7 cond addr s fun _ c t s => if isNonZero c then s.jump (toCell t) else s)

/-- `jf cond, addr` (41_control.md R103). -/
def execJf (cond addr : Operand) (s : State) : Result :=
  .next (formatVV 8 cond addr s fun _ c t s => if isNonZero c then s else s.jump (toCell t))

/-- `call addr` (41_control.md R104): pushes pc = ipc + 2. -/
def execCall (addr : Operand) (s : State) : Result :=
  .next (formatV 17 addr s fun cur t s => (pushStack cur s.pc s).andThen fun _ s => s.jump (toCell t))

/-- `ret` (41_control.md R105). -/
def execRet (s : State) : Result :=
  .next (formatN 18 s fun cur s => (popStack cur s).andThen fun t s => s.jump t)

/-- `noop` (41_control.md R106). -/
def execNoop (s : State) : Result :=
  .next (formatN 21 s fun _ s => s)

end Sys2Proof.Machine
end

