-- ==== Sys2Proof/Machine/Data.lean ====
section
/-! DEFINITION. The data movement instructions (42_data.md R120 to R124). Each meaning starts at the opcode cell (pc = ipc). -/

namespace Sys2Proof.Machine

/-- `set dst, src` (42_data.md R120). -/
def execSet (dst src : Operand) (s : State) : Result :=
  .next (formatRV 1 dst src s fun cur d v s => writeReg cur d (toCell v) s s)

/-- `push src` (42_data.md R121). -/
def execPush (src : Operand) (s : State) : Result :=
  .next (formatV 2 src s fun cur v s => (pushStack cur (toCell v) s).andThen fun _ s => s)

/-- `pop dst` (42_data.md R122). Where WriteReg raises, the entry stays on the stack. -/
def execPop (dst : Operand) (s : State) : Result :=
  .next (formatR 3 dst s fun cur d s => (popStack cur s).andThen fun v t => writeReg cur d v s t)

/-- `rmem dst, addr` (42_data.md R123). -/
def execRmem (dst addr : Operand) (s : State) : Result :=
  .next (formatRV 15 dst addr s fun cur d a s => writeReg cur d (s.memRead a) s s)

/-- `wmem addr, src` (42_data.md R124). -/
def execWmem (addr src : Operand) (s : State) : Result :=
  .next (formatVV 16 addr src s fun _ a v s => s.memWrite a (toCell v))

end Sys2Proof.Machine
end

