-- ==== Sys2Proof/Machine/Io.lean ====
section
/-! DEFINITION. The I/O instructions and the input step of WaitInput (44_io.md R160 to R167). -/

namespace Sys2Proof.Machine

/-- `OutWrite(v)` (44_io.md R162): append v to the trace; the sink accepts every value. -/
def outWrite (v : Value) (s : State) : State := { s with io := s.io ++ [.out v] }

/-- `out ch` (44_io.md R160). -/
def execOut (ch : Operand) (s : State) : Result :=
  .next (formatV 19 ch s fun _ v s => outWrite v s)

/-- `in dst`, its part in Step() (44_io.md R161): decode d and wait. -/
def execIn (dst : Operand) (s : State) : Result :=
  .next (formatR 20 dst s fun _ d s => { s with runState := .waitInput d false })

/-- The `in` that waits, as the fault record names it: ipc = pc - 2, opcode 20 (60_exceptions.md R187). -/
def waitingIn (s : State) : Current := ⟨s.pc - 2, 20⟩

/-- What InputStep does with an event e just taken; s is the state after InTake, in WaitInput(d) (44_io.md R161). Events
taken stay taken where it raises (R164). -/
def acceptInput (d : RegIdx) (e : InEvent) (s : State) : State :=
  match e with
  | .eof =>
    match s.cfg.inEofPolicy with
    | .fault => raise .inputExhausted (waitingIn s) s.lastCell 0 0 s
    | .block => { s with runState := .waitInput d true }
  | .value v =>
    if v = 13 then s
    else writeReg (waitingIn s) d v s { s with runState := .running }

/-- `InTake()` then its use (44_io.md R161, R163): one event, in the order offered. With no event offered the core waits and
nothing changes (70_reset_and_hazards.md R219, log entry 6). -/
def inputStep (d : RegIdx) (s : State) : State :=
  match s.input with
  | [] => s
  | e :: rest => acceptInput d e { s with input := rest, io := s.io ++ [.took e] }

/-- A step in WaitInput(d): after EOF under IN_EOF_POLICY = block InTake is never asked again (44_io.md R161, R165). -/
def waitStep (d : RegIdx) (eofTaken : Bool) (s : State) : Result :=
  .next (if eofTaken then s else inputStep d s)

/-- The output trace of 44_io.md R162: the values written, in order. -/
def State.outTrace (s : State) : List Value :=
  s.io.filterMap fun
    | .out v => some v
    | .took _ => none

/-- The input-consumption trace of 44_io.md R163: the events taken, in order. -/
def State.inTrace (s : State) : List InEvent :=
  s.io.filterMap fun
    | .took e => some e
    | .out _ => none

end Sys2Proof.Machine
end

