-- ==== Sys2Proof/Machine/Dispatch.lean ====
section
/-! DEFINITION. One arm per instruction (30_encoding.md R86: "dispatch on op to its rule"). -/

namespace Sys2Proof.Machine

def exec (i : Instr) (s : State) : Host.Outcome State Fault Refusal :=
  match i with
  | .halt => Sys2Proof.Machine.execHalt s
  | .set dst src => Sys2Proof.Machine.execSet dst src s
  | .push src => Sys2Proof.Machine.execPush src s
  | .pop dst => Sys2Proof.Machine.execPop dst s
  | .eq dst a b => Sys2Proof.Machine.execEq dst a b s
  | .gt dst a b => Sys2Proof.Machine.execGt dst a b s
  | .jmp addr => Sys2Proof.Machine.execJmp addr s
  | .jt cond addr => Sys2Proof.Machine.execJt cond addr s
  | .jf cond addr => Sys2Proof.Machine.execJf cond addr s
  | .add dst a b => Sys2Proof.Machine.execAdd dst a b s
  | .mult dst a b => Sys2Proof.Machine.execMult dst a b s
  | .mod dst a b => Sys2Proof.Machine.execMod dst a b s
  | .and dst a b => Sys2Proof.Machine.execAnd dst a b s
  | .or dst a b => Sys2Proof.Machine.execOr dst a b s
  | .not dst a => Sys2Proof.Machine.execNot dst a s
  | .rmem dst addr => Sys2Proof.Machine.execRmem dst addr s
  | .wmem addr src => Sys2Proof.Machine.execWmem addr src s
  | .call addr => Sys2Proof.Machine.execCall addr s
  | .ret => Sys2Proof.Machine.execRet s
  | .out ch => Sys2Proof.Machine.execOut ch s
  | .inp dst => Sys2Proof.Machine.execIn dst s
  | .noop => Sys2Proof.Machine.execNoop s

end Sys2Proof.Machine
end

