-- ==== Sys2Proof/Machine/HostPort.lean ====
section
/-! DEFINITION. What the host does to the core and reads of it: rst, the loader's boot contract, the input port and the status
port (10_state.md R44 to R48, 70_reset_and_hazards.md R210 to R216). No step runs these; they are the host's (log entry 10). -/

namespace Sys2Proof.Machine

/-- `Reset()` (70_reset_and_hazards.md R210): memory, parameters, offered input and the I/O trace stay. -/
def assertReset (s : State) : State :=
  { s with
    pc := 0
    x := Vector.replicate 8 0
    stack := []
    runState := .running
    fault := FaultRecord.cleared }

/-- The words of an image, low byte first (70_reset_and_hazards.md R213); none for an odd number of bytes (R215). -/
def imageWords : List Byte → Option (List Cell)
  | [] => some []
  | [_] => none
  | lo :: hi :: rest =>
    match imageWords rest with
    | some ws => some (BitVec.ofNat 16 (lo.toNat + 256 * hi.toNat) :: ws)
    | none => none

/-- Load an image from address 0 upward (70_reset_and_hazards.md R212); the cells beyond it stay as they are (R214). An odd
image is rejected before its length is looked at (DESIGN CHOICE, log entry 17). -/
def loadImage (bytes : List Byte) (m : Memory) : Except LoadError Memory :=
  match imageWords bytes with
  | none => .error .imageMalformed
  | some ws => if 32768 < ws.length then .error .imageTooLarge else .ok (m.place 0 ws)

/-- The boot order of 70_reset_and_hazards.md R216: load the image, then release reset. A loader error never releases it. -/
def launch (bytes : List Byte) (s : State) : Except LoadError State :=
  match loadImage bytes s.mem with
  | .error e => .error e
  | .ok m => .ok (assertReset { s with mem := m })

/-- The host offers one more event on the input port (10_state.md R46). -/
def hostOffer (e : InEvent) (s : State) : State := { s with input := s.input ++ [e] }

/-- `run_state` as the host reads it: the four values of 10_state.md R37, without the model's own bit (log entry 9). -/
def RunState.shown : RunState → RunState
  | .waitInput d _ => .waitInput d false
  | r => r

/-- The status port (10_state.md R48). -/
def statusPort (s : State) : StatusView where
  runState := s.runState.shown
  fault := if s.runState = .faulted then some s.fault else none
  inspection :=
    if s.runState = .halted ∨ s.runState = .faulted then some ⟨s.mem, s.x, s.stack, s.pc⟩ else none

end Sys2Proof.Machine
end

