-- ==== Sys2Proof/Machine/Step.lean ====
section
/-! DEFINITION. One step: one instruction in Running, or one input event in WaitInput (30_encoding.md R86,
70_reset_and_hazards.md R219). -/

namespace Sys2Proof.Machine

/-- One step of the core. -/
def step (s : State) : Host.Outcome State Fault Refusal :=
  match s.runState with
  | .running =>
    match fetchInstr s with
    | .ok i => exec i s
    | .error t => .next t
  | .waitInput d eofTaken => waitStep d eofTaken s
  | .halted => terminalStep s
  | .faulted => terminalStep s

/-- `s` with the cells of a table word (operand cells beyond `nbits` zero) at pc, where the next step fetches, and the core
Running. It stands for the host's load of a program (70_reset_and_hazards.md R212, log entry 13). -/
def State.withFetchWord (s : State) (nbits w : Nat) : State :=
  { s with mem := s.mem.place s.pc.toNat (tableCells nbits w), runState := .running }

end Sys2Proof.Machine
end

