-- ==== Sys2Proof/Safety.lean ====
section
/-! DEFINITION. The end of a run (70_reset_and_hazards.md R220, R221) and the invariant of the core. -/

namespace Sys2Proof.Machine

/-- n steps of the core, stopping at the first fault or refusal. -/
def runSteps : Nat → State → Result
  | 0, s => .next s
  | n + 1, s =>
    match step s with
    | .next t => runSteps n t
    | .fault r => .fault r
    | .refused r => .refused r

/-- "A run has ended when run_state is Halted or Faulted" (70_reset_and_hazards.md R221). -/
def State.ended (s : State) : Bool := s.runState = .halted ∨ s.runState = .faulted

/-- "A run ends well when run_state = Halted" (70_reset_and_hazards.md R221). -/
def State.endedWell (s : State) : Bool := s.runState = .halted

/-- The core has an enabled step (70_reset_and_hazards.md R220): Running, or WaitInput with an event offered and no EOF taken
under IN_EOF_POLICY = block. Where it has none, `step` answers the same state (log entry 6). -/
def State.hasStep (s : State) : Bool :=
  match s.runState with
  | .running => true
  | .waitInput _ eofTaken => !eofTaken && !s.input.isEmpty
  | .halted | .faulted => false

/-- The fields of a fault record agree with its kind (10_state.md R40, 60_exceptions.md R181, R184, R186). -/
structure FaultRecord.Consistent (f : FaultRecord) : Prop where
  /-- `reg` is 0 but for RegisterValueOutOfRange. -/
  reg : f.kind ≠ .registerValueOutOfRange → f.reg = 0
  /-- `raw` is 0 but for InvalidOpcode, InvalidOperand and RegisterValueOutOfRange. -/
  raw : f.kind ≠ .invalidOpcode → f.kind ≠ .invalidOperand → f.kind ≠ .registerValueOutOfRange → f.raw = 0
  /-- InvalidOpcode: `opcode` = `raw`, one of 22..65535, and `addr` = `ipc`. -/
  opcode : f.kind = .invalidOpcode → f.raw = f.opcode ∧ 21 < f.raw.toNat ∧ f.addr = f.ipc
  /-- RegisterValueOutOfRange: the value is above 32767. -/
  value : f.kind = .registerValueOutOfRange → 32767 < f.raw.toNat
  /-- `ipc` and `addr` are addresses pc can have (10_state.md R29). -/
  ipc : f.ipc.toNat ≤ 32768
  addr : f.addr.toNat ≤ 32768
  /-- AddressOutOfRange is the fetch at 32768. -/
  pastEnd : f.kind = .addressOutOfRange → f.addr.toNat = 32768

/-- What every state of a run meets (the registers' range, 10_state.md R22, is their type). -/
structure State.Inv (s : State) : Prop where
  /-- Memory is in its canonical form (log entry 2). -/
  mem : s.mem.wf
  /-- "Every value pc can reach is in 0..32768" (10_state.md R29). -/
  pc : s.pc.toNat ≤ 32768
  /-- "every stack entry is in 0..32768" (10_state.md R31). -/
  stack : ∀ e ∈ s.stack, e.toNat ≤ 32768
  /-- The stack keeps within its capacity (10_state.md R32, R33). -/
  capacity : ∀ n, s.cfg.stackCapacity = some n → s.stack.length ≤ n
  /-- Out of Faulted the record is the cleared one (10_state.md R40). -/
  noFault : s.runState ≠ .faulted → s.fault = FaultRecord.cleared
  /-- In Faulted it names a fault (60_exceptions.md R190). -/
  faultKind : s.runState = .faulted → s.fault.kind ≠ .none
  /-- Its fields agree (10_state.md R40). -/
  faultFields : s.fault.Consistent
  /-- In WaitInput pc = ipc + 2 (44_io.md R161). -/
  waitPc : ∀ d e, s.runState = .waitInput d e → 2 ≤ s.pc.toNat
  /-- The model's own bit is set only under IN_EOF_POLICY = block (44_io.md R165, log entry 9). -/
  waitEof : ∀ d, s.runState = .waitInput d true → s.cfg.inEofPolicy = .block

/-- The one operand fault of an instruction with raw opcode `op` and operand positions `ops` (30_encoding.md R78, R82, R89;
60_exceptions.md R182, R184, R192): position k is the first that does not decode, every earlier one is legal, and `t` is the
Faulted state it leaves. Either its cell would stand at 32768 (AddressOutOfRange, pc there, decision D3 of
92_eei_decisions.md), or its cell is illegal in its role (InvalidOperand, pc just past it, R77). -/
def OperandFault (op : Cell) (ops : List (Role × Operand)) (s t : State) : Prop :=
  ∃ (k : Nat) (role : Role) (o : Operand), ops[k]? = some (role, o) ∧
    (∀ j ro, j < k → ops[j]? = some ro → ro.2.legalIn ro.1 = true) ∧
    ((s.pc.toNat + k = 32767 ∧
        t = { s with pc := 32768, runState := .faulted, fault := ⟨.addressOutOfRange, s.pc, 32768, op, 0, 0⟩ }) ∨
      (s.pc.toNat + k < 32767 ∧ o.legalIn role = false ∧
        t = { s with
          pc := s.pc + BitVec.ofNat 16 (k + 2), runState := .faulted,
          fault := ⟨.invalidOperand, s.pc, s.pc + BitVec.ofNat 16 (k + 1), op, o.encode, 0⟩ }))

/-- The n operand cells of the instruction at pc stand inside memory. -/
abbrev State.fits (s : State) (n : Nat) : Prop := s.pc.toNat + n ≤ 32767

end Sys2Proof.Machine
end

