-- ==== Sys2Proof/Certificates/Slice0/Obligations.lean ====
section
/-! DEFINITION. The statements for the provers: what the numbered rules of spec/ say the instructions and the machine do.

In an instruction's statement every form the spec gives it has a clause: its encoding, its effect where all operands decode, its
execute-time faults, and the operand faults (`OperandFault`: the first operand that does not decode stops it, InvalidOperand by
60_exceptions.md R182, AddressOutOfRange by R184, the spec's decision D3). A next state is written in full, so what an
instruction leaves unchanged is part of it. -/

open Sys2Proof Sys2Proof.Machine

namespace Sys2Proof.Shape

/-- What an operand fault of an instruction leaves is its next state. -/
def StopsAtOperandFault (i : Instr) : Prop :=
  ∀ s t : State, s.pc.toNat ≤ 32767 → OperandFault i.opcode i.operands s t → exec i s = .next t

/-- A two-source ALU instruction (43_alu.md): encoding, result, operand faults. -/
def BinaryAlu (mk : Operand → Operand → Operand → Instr) (op : Cell) (result : Value → Value → Value) : Prop :=
  ∀ dst a b : Operand,
    encode (mk dst a b) = [op, dst.encode, a.encode, b.encode] ∧
    (∀ (s : State) (d : RegIdx) (u v : Value), dst = .reg d → valueOf s a = some u → valueOf s b = some v → s.fits 3 →
      exec (mk dst a b) s = .next { s with pc := s.pc + 4, x := s.x.set d.val (result u v) d.isLt }) ∧
    StopsAtOperandFault (mk dst a b)

/-- A conditional jump (41_control.md): taken where `taken` says so of the condition's value; addr is decoded either way. -/
def ConditionalJump (mk : Operand → Operand → Instr) (op : Cell) (taken : Value → Prop) : Prop :=
  ∀ cond addr : Operand,
    encode (mk cond addr) = [op, cond.encode, addr.encode] ∧
    (∀ (s : State) (c t : Value), valueOf s cond = some c → valueOf s addr = some t → s.fits 2 → taken c →
      exec (mk cond addr) s = .next { s with pc := toCell t }) ∧
    (∀ (s : State) (c t : Value), valueOf s cond = some c → valueOf s addr = some t → s.fits 2 → ¬ taken c →
      exec (mk cond addr) s = .next { s with pc := s.pc + 3 }) ∧
    StopsAtOperandFault (mk cond addr)

end Sys2Proof.Shape

open Sys2Proof.Shape

/-! ## Reset, boot and the invariant -/

/-- 10_state.md R26, R30, R35, R39: the reset values. -/
def Obligations.ResetStateHoldsTheResetValues : Prop :=
  (∀ i, State.reset.reg i = 0) ∧ State.reset.pc = 0 ∧ State.reset.stack = [] ∧ State.reset.runState = .running

/-- 70_reset_and_hazards.md, Reset() (decision D20): from any state, `rst` gives the reset values and touches neither memory
nor the I/O streams. -/
def Obligations.ResetInputKeepsMemory : Prop :=
  ∀ s : State,
    (assertReset s).pc = 0 ∧ (∀ i, (assertReset s).reg i = 0) ∧ (assertReset s).stack = [] ∧
    (assertReset s).runState = .running ∧ (assertReset s).fault = ⟨.none, 0, 0, 0, 0, 0⟩ ∧
    (∀ a, (assertReset s).memRead a = s.memRead a) ∧ (assertReset s).input = s.input ∧ (assertReset s).io = s.io ∧
    (assertReset s).cfg = s.cfg

/-- The invariant holds at reset. -/
def Obligations.InvariantHoldsAtReset : Prop := State.reset.Inv

/-- Every step keeps the invariant: memory's canonical form (the model's, log entry 2), the ranges of pc and of stack entries
(10_state.md R29, R31), the stack's capacity (R33), and the agreement of run_state and fault record (R40). -/
def Obligations.StepKeepsTheInvariant : Prop :=
  ∀ s t : State, s.Inv → step s = .next t → t.Inv

/-- The boot order load, then reset (70_reset_and_hazards.md section 2), ends in the invariant, whatever state it starts from. -/
def Obligations.LaunchEstablishesTheInvariant : Prop :=
  ∀ (bytes : List Byte) (s t : State), s.mem.wf → launch bytes s = .ok t → t.Inv

/-- The loader (70_reset_and_hazards.md R212 to R215): an image of n words, n ≤ 32768, puts word k (low byte first) in cell k
and leaves every other cell; a longer one is ImageTooLarge and an odd one ImageMalformed (decision D16), with no state. Which
error an odd image of more than 65536 bytes gives is the model's choice (log entry 17). -/
def Obligations.LoaderPlacesLittleEndianWords : Prop :=
  ∀ (bytes : List Byte) (s : State) (n : Nat),
    (bytes.length = 2 * n → n ≤ 32768 → ∃ t, launch bytes s = .ok t ∧ t = assertReset { s with mem := t.mem } ∧
      (∀ k lo hi, k < n → bytes[2 * k]? = some lo → bytes[2 * k + 1]? = some hi →
        (t.memRead (BitVec.ofNat 15 k)).toNat = lo.toNat + 256 * hi.toNat) ∧
      (∀ a : Value, n ≤ a.toNat → t.memRead a = s.memRead a)) ∧
    (bytes.length = 2 * n → 32768 < n → launch bytes s = .error .imageTooLarge) ∧
    (bytes.length = 2 * n + 1 → launch bytes s = .error .imageMalformed)

/-- The status port (10_state.md section 7, decision D2): run_state always, each of its four values as itself (without the
model's own bit, log entry 9), the fault record in Faulted only, the rest only in Halted or Faulted. -/
def Obligations.StatusPortShowsStoppedStateOnly : Prop :=
  ∀ s : State,
    (s.runState = .running → (statusPort s).runState = .running) ∧
    (∀ d eofTaken, s.runState = .waitInput d eofTaken → (statusPort s).runState = .waitInput d false) ∧
    (s.runState = .halted → (statusPort s).runState = .halted) ∧
    (s.runState = .faulted → (statusPort s).runState = .faulted) ∧
    ((statusPort s).fault = some s.fault ↔ s.runState = .faulted) ∧
    ((statusPort s).fault = none ↔ s.runState ≠ .faulted) ∧
    (s.ended = true → (statusPort s).inspection = some ⟨s.mem, s.x, s.stack, s.pc⟩) ∧
    (s.ended = false → (statusPort s).inspection = none)

/-! ## Encoding -/

/-- 30_encoding.md R71: the three classes of an operand cell, decided by its whole value. -/
def Obligations.OperandCellsFallInThreeClasses : Prop :=
  ∀ raw : Cell,
    (raw.toNat ≤ 32767 → ∃ v : Value, classify raw = .lit v ∧ v.toNat = raw.toNat) ∧
    (32768 ≤ raw.toNat → raw.toNat ≤ 32775 → ∃ i : RegIdx, classify raw = .reg i ∧ i.val = raw.toNat - 32768) ∧
    (32776 ≤ raw.toNat → classify raw = .invalid raw)

/-- Decode and encode agree on every well-formed instruction, whatever cells follow (30_encoding.md sections 1 and 3). -/
def Obligations.DecodeOfEncodeIsTheInstruction : Prop :=
  ∀ (i : Instr) (rest : List Cell), i.wf = true → decode (encode i ++ rest) = .ok (i, rest)

/-- Each run of cells has one meaning: the cells a decoded instruction was read from are its encoding, and its operands have the
classes of 30_encoding.md R71. -/
def Obligations.EncodeOfDecodeIsTheCells : Prop :=
  ∀ (cells rest : List Cell) (i : Instr), decode cells = .ok (i, rest) →
    cells = encode i ++ rest ∧ ∀ ro ∈ i.operands, ro.2.classed = true

/-- The opcode cell is decoded by its raw value (30_encoding.md section 3, decision D4): exactly the values 22..65535 are refused,
whatever follows, and refused by their value. -/
def Obligations.DecoderRefusesExactlyUnknownOpcodes : Prop :=
  ∀ (op : Cell) (rest : List Cell),
    decode (op :: rest) = .error (.invalidOpcode op) ↔ 21 < op.toNat

/-- Words written out from the encodings of 95_test_vectors.md decode to the instructions they stand for. -/
def Obligations.WrittenWordsDecode : Prop :=
  decode [9, 32768, 32767, 2] = .ok (.add (.reg 0) (.lit 32767) (.lit 2), []) ∧
  decode [4, 32770, 32768, 32769] = .ok (.eq (.reg 2) (.reg 0) (.reg 1), []) ∧
  decode [17, 10, 19, 88] = .ok (.call (.lit 10), [19, 88]) ∧
  decode [15, 32768, 100, 0] = .ok (.rmem (.reg 0) (.lit 100), [0]) ∧
  decode [20, 32775] = .ok (.inp (.reg 7), []) ∧
  decode [7, 0, 32800] = .ok (.jt (.lit 0) (.invalid 32800), [])

/-! ## The instruction cycle -/

/-- When the cells at pc decode to an instruction, the step of a Running core is that instruction's meaning, and nothing
around it (30_encoding.md section 5). -/
def Obligations.StepRunsTheDecodedInstruction : Prop :=
  ∀ (s : State) (i : Instr) (rest : List Cell), s.runState = .running → s.pc.toNat ≤ 32767 →
    decode s.window = .ok (i, rest) → step s = exec i s

/-- The same from memory: where an instruction's cells stand at pc, a Running core's step is its meaning (30_encoding.md
section 1: consecutive addresses from ipc). -/
def Obligations.StepRunsTheInstructionInMemory : Prop :=
  ∀ (s : State) (i : Instr), s.runState = .running → (∀ ro ∈ i.operands, ro.2.classed = true) →
    s.pc.toNat + (encode i).length ≤ 32768 →
    (∀ k c, (encode i)[k]? = some c → s.memRead (BitVec.ofNat 15 (s.pc.toNat + k)) = c) →
    step s = exec i s

/-- An opcode fetch at pc ≥ 32768 raises AddressOutOfRange and leaves pc (30_encoding.md section 2 and 60_exceptions.md section 1,
decision D3). -/
def Obligations.OpcodeFetchPastTheEndFaults : Prop :=
  ∀ s : State, s.runState = .running → 32768 ≤ s.pc.toNat →
    step s = .next { s with runState := .faulted, fault := ⟨.addressOutOfRange, s.pc, s.pc, 0, 0, 0⟩ }

/-- The opcode decode (60_exceptions.md section 1; 30_encoding.md sections 3 and 5, decision D4): any opcode cell 22..65535
raises InvalidOpcode; and every other one dispatches. -/
def Obligations.UnknownOpcodeCellsFault : Prop :=
  ∀ s : State, s.runState = .running → s.pc.toNat ≤ 32767 →
    (22 ≤ (s.memRead (BitVec.ofNat 15 s.pc.toNat)).toNat →
      step s = .next { s with
        pc := s.pc + 1, runState := .faulted,
        fault := ⟨.invalidOpcode, s.pc, s.pc, s.memRead (BitVec.ofNat 15 s.pc.toNat),
          s.memRead (BitVec.ofNat 15 s.pc.toNat), 0⟩ }) ∧
    ((s.memRead (BitVec.ofNat 15 s.pc.toNat)).toNat ≤ 21 →
      ∃ i : Instr, i.opcode = s.memRead (BitVec.ofNat 15 s.pc.toNat) ∧ step s = exec i s)

/-- Operands are decoded in position order, all of them, before anything else (30_encoding.md sections 2 and 5; decisions D3, D5):
every instruction either has all its operands legal and inside memory, and then raises no operand fault, or it stops at the
one operand fault it has. -/
def Obligations.OperandsDecodeBeforeExecution : Prop :=
  ∀ (i : Instr) (s : State), s.pc.toNat ≤ 32767 →
    (i.wf = true ∧ s.fits i.operands.length ∧
      ∃ t, exec i s = .next t ∧ (t.fault = s.fault ∨ t.fault.kind ∉ [.invalidOperand, .addressOutOfRange])) ∨
    (¬ (i.wf = true ∧ s.fits i.operands.length) ∧ ∃ t, OperandFault i.opcode i.operands s t ∧ exec i s = .next t)

/-! ## Control instructions -/

/-- halt (41_control.md): pc = ipc + 1, Halted; and then no cell is fetched: the core keeps that state however many steps are
asked (that a state with no step is answered by itself is the model's choice, log entry 6). -/
def Obligations.HaltStopsForGood : Prop :=
  encode .halt = [0] ∧
  ∀ (s : State) (n : Nat),
    exec .halt s = .next { s with pc := s.pc + 1, runState := .halted } ∧
    runSteps n { s with pc := s.pc + 1, runState := .halted } = .next { s with pc := s.pc + 1, runState := .halted }

/-- 41_control.md R101: jmp. -/
def Obligations.JmpSetsPc : Prop :=
  ∀ addr : Operand,
    encode (.jmp addr) = [6, addr.encode] ∧
    (∀ (s : State) (t : Value), valueOf s addr = some t → s.fits 1 →
      exec (.jmp addr) s = .next { s with pc := toCell t }) ∧
    StopsAtOperandFault (.jmp addr)

/-- jt (41_control.md, decision D5): any non-zero condition jumps. -/
def Obligations.JtJumpsOnNonZero : Prop := ConditionalJump .jt 7 fun c => c ≠ 0

/-- jf (41_control.md, decision D5): a zero condition jumps. -/
def Obligations.JfJumpsOnZero : Prop := ConditionalJump .jf 8 fun c => c = 0

/-- 41_control.md R104: call pushes ipc + 2 and jumps; a full stack raises StackOverflow and nothing is pushed. -/
def Obligations.CallPushesReturnAddress : Prop :=
  ∀ addr : Operand,
    encode (.call addr) = [17, addr.encode] ∧
    (∀ (s : State) (t : Value), valueOf s addr = some t → s.fits 1 → s.cfg.stackCapacity ≠ some s.stack.length →
      exec (.call addr) s = .next { s with pc := toCell t, stack := s.stack ++ [s.pc + 2] }) ∧
    (∀ (s : State) (t : Value), valueOf s addr = some t → s.fits 1 → s.cfg.stackCapacity = some s.stack.length →
      exec (.call addr) s = .next { s with
        pc := s.pc + 2, runState := .faulted, fault := ⟨.stackOverflow, s.pc, s.pc + 1, 17, 0, 0⟩ }) ∧
    StopsAtOperandFault (.call addr)

/-- 41_control.md R105: ret pops whatever is on top into pc; an empty stack raises StackUnderflow with pc = ipc + 1. -/
def Obligations.RetPopsPc : Prop :=
  encode .ret = [18] ∧
  (∀ (s : State) (below : List Cell) (t : Cell), s.stack = below ++ [t] →
    exec .ret s = .next { s with pc := t, stack := below }) ∧
  (∀ s : State, s.stack = [] →
    exec .ret s = .next { s with
      pc := s.pc + 1, runState := .faulted, fault := ⟨.stackUnderflow, s.pc, s.pc, 18, 0, 0⟩ })

/-- 41_control.md R106: the only change of noop is pc = ipc + 1. -/
def Obligations.NoopOnlyAdvancesPc : Prop :=
  encode .noop = [21] ∧ ∀ s : State, exec .noop s = .next { s with pc := s.pc + 1 }

/-- A call that completes, then, at any later state with the same stack, a ret, resumes at the cell after the call's operand with
the stack as it was before (the source's property, quoted at ret in 41_control.md). -/
def Obligations.RetResumesAfterTheCall : Prop :=
  ∀ (s t r : State) (addr : Operand), s.pc.toNat ≤ 32767 → s.runState = .running →
    exec (.call addr) s = .next t → t.runState = .running → r.stack = t.stack →
    exec .ret r = .next { r with pc := s.pc + 2, stack := s.stack }

/-! ## Data movement -/

/-- 42_data.md R120: set copies a value. -/
def Obligations.SetCopiesValue : Prop :=
  ∀ dst src : Operand,
    encode (.set dst src) = [1, dst.encode, src.encode] ∧
    (∀ (s : State) (d : RegIdx) (v : Value), dst = .reg d → valueOf s src = some v → s.fits 2 →
      exec (.set dst src) s = .next { s with pc := s.pc + 3, x := s.x.set d.val v d.isLt }) ∧
    StopsAtOperandFault (.set dst src)

/-- push (42_data.md); a full stack raises StackOverflow (60_exceptions.md section 1, decision D8). -/
def Obligations.PushAppendsValue : Prop :=
  ∀ src : Operand,
    encode (.push src) = [2, src.encode] ∧
    (∀ (s : State) (v : Value), valueOf s src = some v → s.fits 1 → s.cfg.stackCapacity ≠ some s.stack.length →
      exec (.push src) s = .next { s with pc := s.pc + 2, stack := s.stack ++ [toCell v] }) ∧
    (∀ (s : State) (v : Value), valueOf s src = some v → s.fits 1 → s.cfg.stackCapacity = some s.stack.length →
      exec (.push src) s = .next { s with
        pc := s.pc + 2, runState := .faulted, fault := ⟨.stackOverflow, s.pc, s.pc + 1, 2, 0, 0⟩ }) ∧
    StopsAtOperandFault (.push src)

/-- pop (42_data.md, decision D7): the top entry goes to the register; an empty stack raises StackUnderflow; an entry above
32767 meets HIGH_WRITE_POLICY, and where that faults the entry stays. -/
def Obligations.PopMovesTopEntry : Prop :=
  ∀ dst : Operand,
    encode (.pop dst) = [3, dst.encode] ∧
    (∀ (s : State) (d : RegIdx) (below : List Cell) (v : Cell), dst = .reg d → s.fits 1 → s.stack = below ++ [v] →
      (v.toNat ≤ 32767 ∨ s.cfg.highWritePolicy = .mask15) →
      exec (.pop dst) s = .next { s with
        pc := s.pc + 2, stack := below, x := s.x.set d.val (BitVec.ofNat 15 (v.toNat % 32768)) d.isLt }) ∧
    (∀ (s : State) (d : RegIdx) (below : List Cell) (v : Cell), dst = .reg d → s.fits 1 → s.stack = below ++ [v] →
      32767 < v.toNat → s.cfg.highWritePolicy = .fault →
      exec (.pop dst) s = .next { s with
        pc := s.pc + 2, runState := .faulted,
        fault := ⟨.registerValueOutOfRange, s.pc, s.pc + 1, 3, v, d⟩ }) ∧
    (∀ (s : State) (d : RegIdx), dst = .reg d → s.fits 1 → s.stack = [] →
      exec (.pop dst) s = .next { s with
        pc := s.pc + 2, runState := .faulted, fault := ⟨.stackUnderflow, s.pc, s.pc + 1, 3, 0, 0⟩ }) ∧
    StopsAtOperandFault (.pop dst)

/-- rmem (42_data.md, decision D7): the raw cell goes to the register; a cell above 32767 meets HIGH_WRITE_POLICY. -/
def Obligations.RmemReadsTheCell : Prop :=
  ∀ dst addr : Operand,
    encode (.rmem dst addr) = [15, dst.encode, addr.encode] ∧
    (∀ (s : State) (d : RegIdx) (a : Value), dst = .reg d → valueOf s addr = some a → s.fits 2 →
      ((s.memRead a).toNat ≤ 32767 ∨ s.cfg.highWritePolicy = .mask15) →
      exec (.rmem dst addr) s = .next { s with
        pc := s.pc + 3, x := s.x.set d.val (BitVec.ofNat 15 ((s.memRead a).toNat % 32768)) d.isLt }) ∧
    (∀ (s : State) (d : RegIdx) (a : Value), dst = .reg d → valueOf s addr = some a → s.fits 2 →
      32767 < (s.memRead a).toNat → s.cfg.highWritePolicy = .fault →
      exec (.rmem dst addr) s = .next { s with
        pc := s.pc + 3, runState := .faulted,
        fault := ⟨.registerValueOutOfRange, s.pc, s.pc + 2, 15, s.memRead a, d⟩ }) ∧
    StopsAtOperandFault (.rmem dst addr)

/-- 42_data.md R124: wmem stores to the one cell its address operand names, and every other cell reads as before. -/
def Obligations.WmemWritesTheCell : Prop :=
  ∀ addr src : Operand,
    encode (.wmem addr src) = [16, addr.encode, src.encode] ∧
    (∀ (s : State) (a v : Value), valueOf s addr = some a → valueOf s src = some v → s.fits 2 →
      ∃ t, exec (.wmem addr src) s = .next t ∧ t = { s with pc := s.pc + 3, mem := t.mem } ∧
        ∀ c, t.memRead c = if c = a then toCell v else s.memRead c) ∧
    StopsAtOperandFault (.wmem addr src)

/-- A store is seen by the very next fetch (20_memory.md section 4), of an opcode and of an operand: a wmem to the cell after its
own last one decides what the next step runs; and the next step runs whatever instruction the cells there make up, the stored
cell counted as its new content wherever it stands among them. -/
def Obligations.StoreIsSeenByTheNextFetch : Prop :=
  ∀ (s t : State) (addr src : Operand) (a v : Value), s.runState = .running → s.fits 2 →
    valueOf s addr = some a → valueOf s src = some v → exec (.wmem addr src) s = .next t →
    (a.toNat = s.pc.toNat + 3 →
      (v = 0 → step t = .next { t with pc := s.pc + 4, runState := .halted }) ∧
      (v = 21 → step t = .next { t with pc := s.pc + 4 }) ∧
      (v.toNat ≤ 21 → ∃ i : Instr, i.opcode = toCell v ∧ step t = exec i t) ∧
      (22 ≤ v.toNat → step t = .next { t with
        pc := s.pc + 4, runState := .faulted,
        fault := ⟨.invalidOpcode, s.pc + 3, s.pc + 3, toCell v, toCell v, 0⟩ })) ∧
    (∀ i : Instr, (∀ ro ∈ i.operands, ro.2.classed = true) → s.pc.toNat + 3 + (encode i).length ≤ 32768 →
      (∀ k c, (encode i)[k]? = some c →
        c = if a.toNat = s.pc.toNat + 3 + k then toCell v else s.memRead (BitVec.ofNat 15 (s.pc.toNat + 3 + k))) →
      step t = exec i t)

/-! ## ALU -/

/-- 43_alu.md R140: eq. -/
def Obligations.EqWritesOneWhenEqual : Prop := BinaryAlu .eq 4 fun u v => if u.toNat = v.toNat then 1 else 0

/-- 43_alu.md R141: gt, strict and unsigned. -/
def Obligations.GtWritesOneWhenGreater : Prop := BinaryAlu .gt 5 fun u v => if v.toNat < u.toNat then 1 else 0

/-- 43_alu.md R142: add modulo 32768. -/
def Obligations.AddWritesSumModulo32768 : Prop := BinaryAlu .add 9 fun u v => BitVec.ofNat 15 ((u.toNat + v.toNat) % 32768)

/-- 43_alu.md R143: mult modulo 32768. -/
def Obligations.MultWritesProductModulo32768 : Prop :=
  BinaryAlu .mult 10 fun u v => BitVec.ofNat 15 (u.toNat * v.toNat % 32768)

/-- 43_alu.md R145: and, bit by bit. -/
def Obligations.AndWritesBitwiseAnd : Prop := BinaryAlu .and 12 fun u v => u &&& v

/-- 43_alu.md R146: or, bit by bit. -/
def Obligations.OrWritesBitwiseOr : Prop := BinaryAlu .or 13 fun u v => u ||| v

/-- mod (43_alu.md, decision D6): the remainder; a zero divisor raises DivideByZero and writes nothing. -/
def Obligations.ModWritesRemainderOrFaults : Prop :=
  ∀ dst a b : Operand,
    encode (.mod dst a b) = [11, dst.encode, a.encode, b.encode] ∧
    (∀ (s : State) (d : RegIdx) (u v : Value), dst = .reg d → valueOf s a = some u → valueOf s b = some v → s.fits 3 →
      v ≠ 0 →
      exec (.mod dst a b) s = .next { s with
        pc := s.pc + 4, x := s.x.set d.val (BitVec.ofNat 15 (u.toNat % v.toNat)) d.isLt }) ∧
    (∀ (s : State) (d : RegIdx) (u : Value), dst = .reg d → valueOf s a = some u → valueOf s b = some 0 → s.fits 3 →
      exec (.mod dst a b) s = .next { s with
        pc := s.pc + 4, runState := .faulted, fault := ⟨.divideByZero, s.pc, s.pc + 3, 11, 0, 0⟩ }) ∧
    StopsAtOperandFault (.mod dst a b)

/-- 43_alu.md R147: not, the 15-bit complement 32767 - a. -/
def Obligations.NotWrites15BitComplement : Prop :=
  ∀ dst a : Operand,
    encode (.not dst a) = [14, dst.encode, a.encode] ∧
    (∀ (s : State) (d : RegIdx) (u : Value), dst = .reg d → valueOf s a = some u → s.fits 2 →
      exec (.not dst a) s = .next { s with
        pc := s.pc + 3, x := s.x.set d.val (BitVec.ofNat 15 (32767 - u.toNat)) d.isLt }) ∧
    StopsAtOperandFault (.not dst a)

/-! ## Shared operations -/

/-- WriteReg (10_state.md section 2, decision D7): in range the value; above, a fault or the value modulo 32768. -/
def Obligations.WriteRegFollowsHighWritePolicy : Prop :=
  ∀ (cur : Current) (d : RegIdx) (v : Cell) (s : State),
    (v.toNat ≤ 32767 → ∀ i, ((writeReg cur d v s s).reg i).toNat = if i = d then v.toNat else (s.reg i).toNat) ∧
    (32767 < v.toNat → s.cfg.highWritePolicy = .mask15 →
      ∀ i, ((writeReg cur d v s s).reg i).toNat = if i = d then v.toNat % 32768 else (s.reg i).toNat) ∧
    (32767 < v.toNat → s.cfg.highWritePolicy = .fault →
      writeReg cur d v s s = { s with
        runState := .faulted, fault := ⟨.registerValueOutOfRange, cur.ipc, s.pc - 1, cur.opcode, v, d⟩ })

/-- 10_state.md R33, R34: Push appends at the top and raises on a full stack; Pop takes the top entry and raises on an empty
one, where nothing changes but the run state and the fault record. -/
def Obligations.StackIsLastInFirstOut : Prop :=
  ∀ (cur : Current) (v : Cell) (s : State),
    (s.cfg.stackCapacity = some s.stack.length → ∃ f, f.kind = .stackOverflow ∧
      pushStack cur v s = .raised { s with runState := .faulted, fault := f }) ∧
    (s.cfg.stackCapacity ≠ some s.stack.length →
      pushStack cur v s = .ok () { s with stack := s.stack ++ [v] } ∧
      popStack cur { s with stack := s.stack ++ [v] } = .ok v s) ∧
    (s.stack = [] → ∃ f, f.kind = .stackUnderflow ∧
      popStack cur s = .raised { s with runState := .faulted, fault := f })

/-! ## I/O -/

/-- 44_io.md R160: out hands one value to the sink. -/
def Obligations.OutAppendsOneValue : Prop :=
  ∀ ch : Operand,
    encode (.out ch) = [19, ch.encode] ∧
    (∀ (s : State) (v : Value), valueOf s ch = some v → s.fits 1 →
      exec (.out ch) s = .next { s with pc := s.pc + 2, io := s.io ++ [.out v] }) ∧
    StopsAtOperandFault (.out ch)

/-- in, its part in Step() (44_io.md section on `in`, decision D19): it waits for input with its destination latched, and takes
no event yet. -/
def Obligations.InWaitsForInput : Prop :=
  ∀ dst : Operand,
    encode (.inp dst) = [20, dst.encode] ∧
    (∀ (s : State) (d : RegIdx), dst = .reg d → s.fits 1 →
      exec (.inp dst) s = .next { s with pc := s.pc + 2, runState := .waitInput d false }) ∧
    StopsAtOperandFault (.inp dst)

/-- An accepted character (44_io.md, decisions D7, D19): a value but 13 is written to the latched register and the core goes on;
above 32767 it meets HIGH_WRITE_POLICY, and where that faults the event stays taken. -/
def Obligations.AcceptedInputIsWritten : Prop :=
  ∀ (s : State) (d : RegIdx) (v : Cell) (rest : List InEvent),
    s.runState = .waitInput d false → s.input = .value v :: rest → v ≠ 13 →
    ((v.toNat ≤ 32767 ∨ s.cfg.highWritePolicy = .mask15) →
      step s = .next { s with
        input := rest, io := s.io ++ [.took (.value v)], runState := .running,
        x := s.x.set d.val (BitVec.ofNat 15 (v.toNat % 32768)) d.isLt }) ∧
    (32767 < v.toNat → s.cfg.highWritePolicy = .fault →
      step s = .next { s with
        input := rest, io := s.io ++ [.took (.value v)], runState := .faulted,
        fault := ⟨.registerValueOutOfRange, s.pc - 2, s.pc - 1, 20, v, d⟩ })

/-- Carriage returns are taken and dropped, any number of them, and the first other value is written (44_io.md): n + 1 steps of
the waiting core take n carriage returns and the value, in order, and nothing else changes. -/
def Obligations.InSkipsCarriageReturns : Prop :=
  ∀ (n : Nat) (s : State) (d : RegIdx) (v : Cell) (rest : List InEvent),
    s.runState = .waitInput d false → v ≠ 13 → v.toNat ≤ 32767 →
    s.input = List.replicate n (.value 13) ++ .value v :: rest →
    runSteps (n + 1) s = .next { s with
      input := rest, runState := .running,
      io := s.io ++ List.replicate n (.took (.value 13)) ++ [.took (.value v)],
      x := s.x.set d.val (BitVec.ofNat 15 v.toNat) d.isLt }

/-- End of input (44_io.md, decision D9): InputExhausted under `fault`; under `block` EOF is taken, nothing else
changes, and the core waits for ever: whatever the host offers from then on, no step changes anything (that a state with no
step is answered by itself is log entry 6). -/
def Obligations.EndOfInputFollowsEofPolicy : Prop :=
  ∀ (s : State) (d : RegIdx) (rest : List InEvent),
    s.runState = .waitInput d false → s.input = .eof :: rest →
    (s.cfg.inEofPolicy = .fault →
      step s = .next { s with
        input := rest, io := s.io ++ [.took .eof], runState := .faulted,
        fault := ⟨.inputExhausted, s.pc - 2, s.pc - 1, 20, 0, 0⟩ }) ∧
    (s.cfg.inEofPolicy = .block →
      ∃ t, step s = .next t ∧ (∃ eofTaken, t.runState = .waitInput d eofTaken) ∧
        t = { s with input := rest, io := s.io ++ [.took .eof], runState := t.runState } ∧
        ∀ (offers : List InEvent) (n : Nat),
          runSteps n { t with input := offers } = .next { t with input := offers })

/-! ## Whole-machine rules -/

/-- A core with no enabled step (Halted, Faulted, WaitInput with no event offered or after EOF under `block`) changes nothing
(70_reset_and_hazards.md section 4, log entry 6); and a step of WaitInput that is enabled takes exactly one event, in order; and while
the core goes on waiting no other state changes (44_io.md, the rule of `in`), as where the event is a carriage return. -/
def Obligations.OnlyEnabledStepsChangeState : Prop :=
  ∀ s : State,
    (s.hasStep = false → step s = .next s) ∧
    (s.hasStep = true → s.runState ≠ .running → ∃ e t, step s = .next t ∧ s.input = e :: t.input ∧ t.io = s.io ++ [.took e] ∧
      t.pc = s.pc ∧ t.stack = s.stack ∧ t.mem = s.mem ∧
      (∀ d eofTaken, t.runState = .waitInput d eofTaken →
        t = { s with input := t.input, io := t.io, runState := t.runState })) ∧
    (∀ d rest, s.runState = .waitInput d false → s.input = .value 13 :: rest →
      step s = .next { s with input := rest, io := s.io ++ [.took (.value 13)] })

/-- run_state moves as 10_state.md section 5 lists (decision D14): Running goes to Halted by halt only and to WaitInput(d) by an
`in` of register d only; WaitInput(d) goes to Running only by taking a value, which is then in register d; both may go to
Faulted; Halted and Faulted are never left by a step. -/
def Obligations.RunStateMovesAsListed : Prop :=
  ∀ s t : State, step s = .next t →
    (s.runState = .running →
      (t.runState = .running ∨ t.runState = .faulted ∨
        (t.runState = .halted ∧ fetchInstr s = .ok .halt) ∨
        (∃ d, t.runState = .waitInput d false ∧ fetchInstr s = .ok (.inp (.reg d))))) ∧
    (∀ d e, s.runState = .waitInput d e →
      ((∃ e', t.runState = .waitInput d e') ∨ t.runState = .faulted ∨
        (t.runState = .running ∧ ∃ v, s.input.head? = some (.value v) ∧ v ≠ 13 ∧ (t.reg d).toNat = v.toNat % 32768))) ∧
    (s.runState = .halted ∨ s.runState = .faulted → t = s)

/-- Faults are precise (60_exceptions.md section 2): a step that raises leaves memory, registers and stack, and, in Running,
the input and the trace; in WaitInput it leaves pc and has taken one event. -/
def Obligations.FaultsArePrecise : Prop :=
  ∀ s t : State, step s = .next t → t.runState = .faulted → s.runState ≠ .faulted →
    (∀ a, t.memRead a = s.memRead a) ∧ t.x = s.x ∧ t.stack = s.stack ∧ t.cfg = s.cfg ∧
    (s.runState = .running → t.input = s.input ∧ t.io = s.io ∧ t.fault.ipc = s.pc) ∧
    (s.runState ≠ .running → t.pc = s.pc ∧ ∃ e, s.input = e :: t.input ∧ t.io = s.io ++ [.took e])

/-- Only wmem changes memory (20_memory.md section 1): no other instruction, and no input step, changes any cell; and wmem
changes no cell but the one its address operand names, faulting or not. -/
def Obligations.OnlyWmemChangesMemory : Prop :=
  (∀ (i : Instr) (s t : State) (a : Value), exec i s = .next t → t.memRead a ≠ s.memRead a →
    ∃ addr src, i = .wmem addr src ∧ valueOf s addr = some a) ∧
  (∀ (s t : State) (a : Value), s.runState ≠ .running → step s = .next t → t.memRead a = s.memRead a)

/-- A program writes only values 0..32767 to memory (20_memory.md section 1: "A cell above 32767 can therefore come only from the
image"): a cell that a step changes holds at most 32767 afterwards. -/
def Obligations.ChangedCellsHoldValues : Prop :=
  ∀ (s t : State) (a : Value), step s = .next t → t.memRead a ≠ s.memRead a → (t.memRead a).toNat ≤ 32767

/-- No instruction writes a register but the one its first operand names, and only set, pop, eq, gt, add, mult, mod, and, or,
not and rmem write one (10_state.md section 2; `in` writes in WaitInput, see AcceptedInputIsWritten). -/
def Obligations.OnlyTheDestinationRegisterChanges : Prop :=
  ∀ (i : Instr) (s t : State) (r : RegIdx), exec i s = .next t → t.reg r ≠ s.reg r →
    i.operands.head? = some (.dst, .reg r) ∧ ∀ dst, i ≠ .inp dst

/-- Only push, pop, call and ret touch the stack, each by one entry (10_state.md section 4). -/
def Obligations.OnlyStackInstructionsTouchTheStack : Prop :=
  ∀ (i : Instr) (s t : State), exec i s = .next t → t.stack ≠ s.stack →
    ((∃ src, i = .push src) ∨ (∃ addr, i = .call addr)) ∧ (∃ v, t.stack = s.stack ++ [v]) ∨
    ((∃ dst, i = .pop dst) ∨ i = .ret) ∧ (∃ v, s.stack = t.stack ++ [v])

/-- The I/O trace only grows, by at most one entry a step, and an entry is written by out or by taking the offered event; an
instruction takes no event (44_io.md, port behaviour; 10_state.md section 7). -/
def Obligations.IoTraceOnlyGrows : Prop :=
  ∀ s t : State, step s = .next t →
    (t.io = s.io ∧ t.input = s.input) ∨
    (s.runState = .running ∧ t.input = s.input ∧
      ∃ ch v, fetchInstr s = .ok (.out ch) ∧ valueOf s ch = some v ∧ t.io = s.io ++ [.out v]) ∨
    (s.runState ≠ .running ∧ ∃ e, s.input = e :: t.input ∧ t.io = s.io ++ [.took e])

/-- No step changes the parameters of 00_scope.md section 4 (the model holds them in State, log entry 4). -/
def Obligations.StepKeepsTheParameters : Prop :=
  ∀ s t : State, step s = .next t → t.cfg = s.cfg

/-! ## Operand values and fault codes -/

/-- ResolveValue and ResolveRegister (30_encoding.md section 2, decision D3; the source's property W1 of 95_test_vectors.md) on
every operand cell: the value is the cell itself for 0..32767 and the register's content for 32768..32775; the register index is
that of 32768..32775 only; each consumes one cell, and raises InvalidOperand past it where there is no result, but for a fetch
past the last cell, which raises AddressOutOfRange and leaves pc. -/
def Obligations.OperandCellsResolveByClass : Prop :=
  ∀ (cur : Current) (s : State) (raw : Cell),
    (raw.toNat ≤ 32767 → ∃ v : Value, v.toNat = raw.toNat ∧
      valueOf s (classify raw) = some v ∧ indexOf s (classify raw) = none) ∧
    (32768 ≤ raw.toNat → raw.toNat ≤ 32775 → ∃ i : RegIdx, i.val = raw.toNat - 32768 ∧
      valueOf s (classify raw) = some s.x[i] ∧ indexOf s (classify raw) = some i) ∧
    (32776 ≤ raw.toNat → valueOf s (classify raw) = none ∧ indexOf s (classify raw) = none) ∧
    (s.pc.toNat ≤ 32767 →
      (∀ v, valueOf s (classify raw) = some v → resolveValue cur (classify raw) s = .ok v { s with pc := s.pc + 1 }) ∧
      (valueOf s (classify raw) = none → resolveValue cur (classify raw) s = .raised { s with
        pc := s.pc + 1, runState := .faulted, fault := ⟨.invalidOperand, cur.ipc, s.pc, cur.opcode, raw, 0⟩ }) ∧
      (∀ i, indexOf s (classify raw) = some i → resolveRegister cur (classify raw) s = .ok i { s with pc := s.pc + 1 }) ∧
      (indexOf s (classify raw) = none → resolveRegister cur (classify raw) s = .raised { s with
        pc := s.pc + 1, runState := .faulted, fault := ⟨.invalidOperand, cur.ipc, s.pc, cur.opcode, raw, 0⟩ })) ∧
    (32768 ≤ s.pc.toNat →
      resolveValue cur (classify raw) s = .raised { s with
        runState := .faulted, fault := ⟨.addressOutOfRange, cur.ipc, s.pc, cur.opcode, 0, 0⟩ } ∧
      resolveRegister cur (classify raw) s = .raised { s with
        runState := .faulted, fault := ⟨.addressOutOfRange, cur.ipc, s.pc, cur.opcode, 0, 0⟩ })

/-- The codes of the fault record's `kind` field, the table of 60_exceptions.md section 1 (decision D12). -/
def Obligations.FaultCodesAreTheTable : Prop :=
  FaultKind.none.code = 0 ∧ FaultKind.invalidOpcode.code = 1 ∧ FaultKind.invalidOperand.code = 2 ∧
  FaultKind.stackUnderflow.code = 3 ∧ FaultKind.addressOutOfRange.code = 4 ∧ FaultKind.divideByZero.code = 5 ∧
  FaultKind.registerValueOutOfRange.code = 6 ∧ FaultKind.inputExhausted.code = 7 ∧ FaultKind.stackOverflow.code = 8
end

