-- ==== Sys2Proof/Laws/State.lean ====
section
/-! SUPPORT. One lemma per field per update of State, each true by rfl. -/

namespace Sys2Proof.Machine

@[simp] theorem State.advance_cfg (s : State) : (s.advance).cfg = s.cfg := rfl
@[simp] theorem State.advance_mem (s : State) : (s.advance).mem = s.mem := rfl
@[simp] theorem State.advance_x (s : State) : (s.advance).x = s.x := rfl
@[simp] theorem State.advance_pc (s : State) : (s.advance).pc = s.pc + 1 := rfl
@[simp] theorem State.advance_stack (s : State) : (s.advance).stack = s.stack := rfl
@[simp] theorem State.advance_runState (s : State) : (s.advance).runState = s.runState := rfl
@[simp] theorem State.advance_fault (s : State) : (s.advance).fault = s.fault := rfl
@[simp] theorem State.advance_input (s : State) : (s.advance).input = s.input := rfl
@[simp] theorem State.advance_io (s : State) : (s.advance).io = s.io := rfl

@[simp] theorem State.jump_cfg (s : State) (t : Cell) : (s.jump t).cfg = s.cfg := rfl
@[simp] theorem State.jump_mem (s : State) (t : Cell) : (s.jump t).mem = s.mem := rfl
@[simp] theorem State.jump_x (s : State) (t : Cell) : (s.jump t).x = s.x := rfl
@[simp] theorem State.jump_pc (s : State) (t : Cell) : (s.jump t).pc = t := rfl
@[simp] theorem State.jump_stack (s : State) (t : Cell) : (s.jump t).stack = s.stack := rfl
@[simp] theorem State.jump_runState (s : State) (t : Cell) : (s.jump t).runState = s.runState := rfl
@[simp] theorem State.jump_fault (s : State) (t : Cell) : (s.jump t).fault = s.fault := rfl
@[simp] theorem State.jump_input (s : State) (t : Cell) : (s.jump t).input = s.input := rfl
@[simp] theorem State.jump_io (s : State) (t : Cell) : (s.jump t).io = s.io := rfl

@[simp] theorem State.setReg_cfg (s : State) (i : RegIdx) (v : Value) : (s.setReg i v).cfg = s.cfg := rfl
@[simp] theorem State.setReg_mem (s : State) (i : RegIdx) (v : Value) : (s.setReg i v).mem = s.mem := rfl
@[simp] theorem State.setReg_x (s : State) (i : RegIdx) (v : Value) : (s.setReg i v).x = s.x.set i.val v i.isLt := rfl
@[simp] theorem State.setReg_pc (s : State) (i : RegIdx) (v : Value) : (s.setReg i v).pc = s.pc := rfl
@[simp] theorem State.setReg_stack (s : State) (i : RegIdx) (v : Value) : (s.setReg i v).stack = s.stack := rfl
@[simp] theorem State.setReg_runState (s : State) (i : RegIdx) (v : Value) : (s.setReg i v).runState = s.runState := rfl
@[simp] theorem State.setReg_fault (s : State) (i : RegIdx) (v : Value) : (s.setReg i v).fault = s.fault := rfl
@[simp] theorem State.setReg_input (s : State) (i : RegIdx) (v : Value) : (s.setReg i v).input = s.input := rfl
@[simp] theorem State.setReg_io (s : State) (i : RegIdx) (v : Value) : (s.setReg i v).io = s.io := rfl

@[simp] theorem State.memWrite_cfg (s : State) (a : Value) (v : Cell) : (s.memWrite a v).cfg = s.cfg := rfl
@[simp] theorem State.memWrite_mem (s : State) (a : Value) (v : Cell) : (s.memWrite a v).mem = s.mem.write a.toNat v := rfl
@[simp] theorem State.memWrite_x (s : State) (a : Value) (v : Cell) : (s.memWrite a v).x = s.x := rfl
@[simp] theorem State.memWrite_pc (s : State) (a : Value) (v : Cell) : (s.memWrite a v).pc = s.pc := rfl
@[simp] theorem State.memWrite_stack (s : State) (a : Value) (v : Cell) : (s.memWrite a v).stack = s.stack := rfl
@[simp] theorem State.memWrite_runState (s : State) (a : Value) (v : Cell) : (s.memWrite a v).runState = s.runState := rfl
@[simp] theorem State.memWrite_fault (s : State) (a : Value) (v : Cell) : (s.memWrite a v).fault = s.fault := rfl
@[simp] theorem State.memWrite_input (s : State) (a : Value) (v : Cell) : (s.memWrite a v).input = s.input := rfl
@[simp] theorem State.memWrite_io (s : State) (a : Value) (v : Cell) : (s.memWrite a v).io = s.io := rfl

@[simp] theorem raise_cfg (k : FaultKind) (cur : Current) (addr raw : Cell) (r : RegIdx) (s : State) : (raise k cur addr raw r s).cfg = s.cfg := rfl
@[simp] theorem raise_mem (k : FaultKind) (cur : Current) (addr raw : Cell) (r : RegIdx) (s : State) : (raise k cur addr raw r s).mem = s.mem := rfl
@[simp] theorem raise_x (k : FaultKind) (cur : Current) (addr raw : Cell) (r : RegIdx) (s : State) : (raise k cur addr raw r s).x = s.x := rfl
@[simp] theorem raise_pc (k : FaultKind) (cur : Current) (addr raw : Cell) (r : RegIdx) (s : State) : (raise k cur addr raw r s).pc = s.pc := rfl
@[simp] theorem raise_stack (k : FaultKind) (cur : Current) (addr raw : Cell) (r : RegIdx) (s : State) : (raise k cur addr raw r s).stack = s.stack := rfl
@[simp] theorem raise_runState (k : FaultKind) (cur : Current) (addr raw : Cell) (r : RegIdx) (s : State) : (raise k cur addr raw r s).runState = .faulted := rfl
@[simp] theorem raise_fault (k : FaultKind) (cur : Current) (addr raw : Cell) (r : RegIdx) (s : State) : (raise k cur addr raw r s).fault = ⟨k, cur.ipc, addr, cur.opcode, raw, r⟩ := rfl
@[simp] theorem raise_input (k : FaultKind) (cur : Current) (addr raw : Cell) (r : RegIdx) (s : State) : (raise k cur addr raw r s).input = s.input := rfl
@[simp] theorem raise_io (k : FaultKind) (cur : Current) (addr raw : Cell) (r : RegIdx) (s : State) : (raise k cur addr raw r s).io = s.io := rfl

@[simp] theorem outWrite_cfg (v : Value) (s : State) : (outWrite v s).cfg = s.cfg := rfl
@[simp] theorem outWrite_mem (v : Value) (s : State) : (outWrite v s).mem = s.mem := rfl
@[simp] theorem outWrite_x (v : Value) (s : State) : (outWrite v s).x = s.x := rfl
@[simp] theorem outWrite_pc (v : Value) (s : State) : (outWrite v s).pc = s.pc := rfl
@[simp] theorem outWrite_stack (v : Value) (s : State) : (outWrite v s).stack = s.stack := rfl
@[simp] theorem outWrite_runState (v : Value) (s : State) : (outWrite v s).runState = s.runState := rfl
@[simp] theorem outWrite_fault (v : Value) (s : State) : (outWrite v s).fault = s.fault := rfl
@[simp] theorem outWrite_input (v : Value) (s : State) : (outWrite v s).input = s.input := rfl
@[simp] theorem outWrite_io (v : Value) (s : State) : (outWrite v s).io = s.io ++ [.out v] := rfl

@[simp] theorem assertReset_cfg (s : State) : (assertReset s).cfg = s.cfg := rfl
@[simp] theorem assertReset_mem (s : State) : (assertReset s).mem = s.mem := rfl
@[simp] theorem assertReset_x (s : State) : (assertReset s).x = Vector.replicate 8 0 := rfl
@[simp] theorem assertReset_pc (s : State) : (assertReset s).pc = 0 := rfl
@[simp] theorem assertReset_stack (s : State) : (assertReset s).stack = [] := rfl
@[simp] theorem assertReset_runState (s : State) : (assertReset s).runState = .running := rfl
@[simp] theorem assertReset_fault (s : State) : (assertReset s).fault = FaultRecord.cleared := rfl
@[simp] theorem assertReset_input (s : State) : (assertReset s).input = s.input := rfl
@[simp] theorem assertReset_io (s : State) : (assertReset s).io = s.io := rfl

@[simp] theorem hostOffer_cfg (e : InEvent) (s : State) : (hostOffer e s).cfg = s.cfg := rfl
@[simp] theorem hostOffer_mem (e : InEvent) (s : State) : (hostOffer e s).mem = s.mem := rfl
@[simp] theorem hostOffer_x (e : InEvent) (s : State) : (hostOffer e s).x = s.x := rfl
@[simp] theorem hostOffer_pc (e : InEvent) (s : State) : (hostOffer e s).pc = s.pc := rfl
@[simp] theorem hostOffer_stack (e : InEvent) (s : State) : (hostOffer e s).stack = s.stack := rfl
@[simp] theorem hostOffer_runState (e : InEvent) (s : State) : (hostOffer e s).runState = s.runState := rfl
@[simp] theorem hostOffer_fault (e : InEvent) (s : State) : (hostOffer e s).fault = s.fault := rfl
@[simp] theorem hostOffer_input (e : InEvent) (s : State) : (hostOffer e s).input = s.input ++ [e] := rfl
@[simp] theorem hostOffer_io (e : InEvent) (s : State) : (hostOffer e s).io = s.io := rfl

/-- Reading registers and memory does not depend on pc. -/
@[simp] theorem State.advance_reg (s : State) (i : RegIdx) : s.advance.reg i = s.reg i := rfl
@[simp] theorem State.advance_memRead (s : State) (a : Value) : s.advance.memRead a = s.memRead a := rfl
@[simp] theorem State.jump_reg (s : State) (t : Cell) (i : RegIdx) : (s.jump t).reg i = s.reg i := rfl
@[simp] theorem valueOf_advance (s : State) (o : Operand) : valueOf s.advance o = valueOf s o := rfl

/-- A register reads the value just written to it, and the others keep theirs (10_state.md R21: no aliases). -/
theorem State.reg_setReg (s : State) (i j : RegIdx) (v : Value) :
    (s.setReg i v).reg j = if i = j then v else s.reg j := by
  simp [State.reg, State.setReg, Vector.getElem_set, Fin.ext_iff]

end Sys2Proof.Machine
end

