-- ==== Sys2Proof/Laws/Memory.lean ====
section
/-! SUPPORT. Memory: read after write, and the canonical form, kept by every memory operation (log entry 2). -/

namespace Sys2Proof.Machine

/-- Read after write (20_memory.md R60). -/
theorem Memory.lookup_write (m : Memory) (a b : Nat) (v : Cell) :
    (Memory.write m a v).lookup b = if a = b then some v else m.lookup b := by
  induction m with
  | nil => simp [Memory.write, Memory.lookup]
  | cons c rest ih =>
    obtain ⟨d, w⟩ := c
    unfold Memory.write
    split
    · simp [Memory.lookup]
    · split
      · subst_vars; simp only [Memory.lookup]; split <;> rfl
      · simp only [Memory.lookup, ih]
        split <;> rename_i h <;> split <;> simp_all

/-- Every listed address of a written memory was listed or is the one written. -/
theorem Memory.mem_write {m : Memory} {a : Nat} {v : Cell} {c : Nat × Cell} (h : c ∈ Memory.write m a v) :
    c = (a, v) ∨ c ∈ m := by
  induction m with
  | nil => exact .inl (by simpa [Memory.write] using h)
  | cons d rest ih =>
    obtain ⟨b, w⟩ := d
    unfold Memory.write at h
    split at h
    · simpa using h
    · split at h
      · exact (List.mem_cons.1 h).imp id (List.mem_cons_of_mem _)
      · obtain rfl | h := List.mem_cons.1 h
        · simp
        · exact (ih h).imp id (List.mem_cons_of_mem _)

/-- A write keeps the canonical form. -/
theorem Memory.write_wf {m : Memory} {a : Nat} (v : Cell) (h : m.wf) (ha : a < 32768) :
    (Memory.write m a v).wf := by
  refine ⟨?_, fun c hc => ?_⟩
  · have hs := h.1
    clear h
    induction m with
    | nil => simp [Memory.write]
    | cons d rest ih =>
      obtain ⟨b, w⟩ := d
      have hp := List.pairwise_cons.1 hs
      unfold Memory.write
      split
      · rename_i hlt
        refine List.pairwise_cons.2 ⟨fun c hc => ?_, hs⟩
        obtain rfl | hc := List.mem_cons.1 hc
        · exact hlt
        · exact Nat.lt_trans hlt (hp.1 c hc)
      · split
        · subst_vars; exact List.pairwise_cons.2 hp
        · refine List.pairwise_cons.2 ⟨fun c hc => ?_, ih hp.2⟩
          obtain rfl | hc := Memory.mem_write hc
          · simp only; omega
          · exact hp.1 c hc
  · obtain rfl | hc := Memory.mem_write hc
    · exact ha
    · exact h.2 c hc

/-- Placing cells keeps the canonical form. -/
theorem Memory.place_wf {m : Memory} (a : Nat) (vs : List Cell) (h : m.wf) : (m.place a vs).wf := by
  induction vs generalizing m a with
  | nil => exact h
  | cons v vs ih =>
    refine ih _ ?_
    split
    · exact Memory.write_wf v h ‹_›
    · exact h

/-- What placing cells leaves at an address (70_reset_and_hazards.md R212). -/
theorem Memory.lookup_place (m : Memory) (a b : Nat) (vs : List Cell) :
    (m.place a vs).lookup b =
      if a ≤ b ∧ b < a + vs.length ∧ b < 32768 then vs[b - a]? else m.lookup b := by
  induction vs generalizing m a with
  | nil => simp [Memory.place]; omega
  | cons v vs ih =>
    rw [Memory.place, ih]
    by_cases h : a = b
    · subst h
      by_cases ha : a < 32768 <;> simp [ha, Memory.lookup_write]
    · by_cases hab : a + 1 ≤ b
      · have hi : b - a = (b - (a + 1)) + 1 := by omega
        have hl : (if a < 32768 then m.write a v else m).lookup b = m.lookup b := by
          split <;> simp [Memory.lookup_write, h]
        simp only [hl, List.length_cons, hi, List.getElem?_cons_succ]
        refine if_congr ?_ rfl rfl
        omega
      · have hl : (if a < 32768 then m.write a v else m).lookup b = m.lookup b := by
          split <;> simp [Memory.lookup_write, h]
        rw [hl, if_neg (by omega), if_neg (by simp; omega)]

/-- A listed address looks up to its cell. -/
theorem Memory.lookup_of_mem {m : Memory} (h : m.wf) {a : Nat} {v : Cell} (hm : (a, v) ∈ m) : m.lookup a = some v := by
  induction m with
  | nil => simp at hm
  | cons d rest ih =>
    obtain ⟨b, w⟩ := d
    have hp := List.pairwise_cons.1 h.1
    obtain he | hm := List.mem_cons.1 hm
    · cases he; simp [Memory.lookup]
    · have hb := hp.1 _ hm
      rw [Memory.lookup, if_neg (by simp only at hb; omega)]
      exact ih ⟨hp.2, fun c hc => h.2 c (List.mem_cons_of_mem _ hc)⟩ hm

/-- A cell that a lookup gives is listed. -/
theorem Memory.mem_of_lookup {m : Memory} {a : Nat} {v : Cell} (h : m.lookup a = some v) : (a, v) ∈ m := by
  induction m with
  | nil => simp [Memory.lookup] at h
  | cons d rest ih =>
    obtain ⟨b, w⟩ := d
    unfold Memory.lookup at h
    split at h
    · cases h; subst_vars; simp
    · exact List.mem_cons_of_mem _ (ih h)

/-- The form is canonical: memories in it with the same lookups are the same data. -/
theorem Memory.eq_of_lookup {m n : Memory} (hm : m.wf) (hn : n.wf) (h : ∀ a, m.lookup a = n.lookup a) : m = n := by
  have sub : ∀ {p q : Memory}, p.wf → (∀ a, p.lookup a = q.lookup a) → p ⊆ q := fun hp he c hc =>
    Memory.mem_of_lookup ((he c.1).symm.trans (Memory.lookup_of_mem hp hc))
  have nodup : ∀ {p : Memory}, p.wf → p.Nodup := fun hp => hp.1.imp fun hlt he => by subst he; exact absurd hlt (by simp)
  refine List.Perm.eq_of_pairwise (le := fun c d => c.1 < d.1) (fun a b _ _ h1 h2 => by omega) hm.1 hn.1 ?_
  exact (List.subperm_of_subset (nodup hm) (sub hm h)).antisymm
    (List.subperm_of_subset (nodup hn) (sub hn fun a => (h a).symm))

/-- Reading memory after a write to it (20_memory.md R60). -/
theorem State.memRead_memWrite (s : State) (a b : Value) (v : Cell) :
    (s.memWrite a v).memRead b = if a = b then v else s.memRead b := by
  simp only [State.memRead, State.memWrite, Memory.lookup_write, BitVec.toNat_inj]
  split <;> simp_all

/-- `wmem` keeps the canonical form: its address is a value operand, so it is inside 0..32767 (20_memory.md R54). -/
theorem State.memWrite_wf {s : State} (a : Value) (v : Cell) (h : s.mem.wf) : (s.memWrite a v).mem.wf :=
  Memory.write_wf v h a.isLt

/-- The loader keeps the canonical form. -/
theorem loadImage_wf {bytes : List Byte} {m n : Memory} (hm : m.wf) (h : loadImage bytes m = .ok n) : n.wf := by
  unfold loadImage at h
  split at h
  · cases h
  · split at h
    · cases h
    · cases h; exact Memory.place_wf 0 _ hm

/-- The memory of the reset state is in canonical form. -/
theorem reset_mem_wf : State.reset.mem.wf := by simp [State.reset, Memory.wf]

/-- A word placed for the next fetch keeps the canonical form. -/
theorem withFetchWord_wf {s : State} (nbits w : Nat) (h : s.mem.wf) : (s.withFetchWord nbits w).mem.wf :=
  Memory.place_wf _ _ h

end Sys2Proof.Machine
end

