-- ==== Sys2Proof/Laws/Ops.lean ====
section
/-! SUPPORT. What each shared operation over registers and stack can do, said once. -/

namespace Sys2Proof.Machine

@[simp] theorem Resolved.andThen_ok {α : Type} (a : α) (s : State) (k : α → State → State) :
    (Resolved.ok a s).andThen k = k a s := rfl

@[simp] theorem Resolved.andThen_raised {α : Type} (s : State) (k : α → State → State) :
    (Resolved.raised s : Resolved α).andThen k = s := rfl

/-- A 15-bit value as a cell keeps its number. -/
@[simp] theorem toNat_toCell (v : Value) : (toCell v).toNat = v.toNat := by
  simp only [toCell, BitVec.toNat_setWidth]
  have := v.isLt
  omega

/-- A value in range is stored as it is, whatever the policy (10_state.md R25). -/
theorem storedValue_of_le {p : HighWritePolicy} {v : Cell} (h : v.toNat ≤ 32767) :
    storedValue p v = some (BitVec.ofNat 15 v.toNat) := by simp [storedValue, h]

@[simp] theorem storedValue_toCell (p : HighWritePolicy) (v : Value) : storedValue p (toCell v) = some v := by
  have := v.isLt
  rw [storedValue_of_le (by simp; omega)]
  simp

/-- `set` and the ALU never meet HIGH_WRITE_POLICY: a value in range is written (10_state.md R25). -/
theorem writeReg_of_le {cur : Current} {d : RegIdx} {v : Cell} {s₀ s : State} (h : v.toNat ≤ 32767) :
    writeReg cur d v s₀ s = s.setReg d (BitVec.ofNat 15 v.toNat) := by simp [writeReg, storedValue_of_le h]

@[simp] theorem writeReg_toCell (cur : Current) (d : RegIdx) (v : Value) (s₀ s : State) :
    writeReg cur d (toCell v) s₀ s = s.setReg d v := by simp [writeReg]

/-- Above the range under HIGH_WRITE_POLICY = fault, WriteReg raises (60_exceptions.md R186). -/
theorem writeReg_fault {cur : Current} {d : RegIdx} {v : Cell} {s₀ s : State} (h : 32767 < v.toNat)
    (hp : s.cfg.highWritePolicy = .fault) :
    writeReg cur d v s₀ s = raise .registerValueOutOfRange cur s₀.lastCell v d s₀ := by
  simp [writeReg, storedValue, hp, Nat.not_le.2 h]

/-- Above the range under mask15, WriteReg stores v mod 32768 (10_state.md R25). -/
theorem writeReg_mask15 {cur : Current} {d : RegIdx} {v : Cell} {s₀ s : State} (h : 32767 < v.toNat)
    (hp : s.cfg.highWritePolicy = .mask15) :
    writeReg cur d v s₀ s = s.setReg d (BitVec.ofNat 15 (v.toNat % 32768)) := by
  simp [writeReg, storedValue, hp, Nat.not_le.2 h]

/-- Everything WriteReg can do. -/
theorem writeReg_cases (cur : Current) (d : RegIdx) (v : Cell) (s₀ s : State) :
    (∃ w, writeReg cur d v s₀ s = s.setReg d w) ∨
      (32767 < v.toNat ∧ s.cfg.highWritePolicy = .fault ∧
        writeReg cur d v s₀ s = raise .registerValueOutOfRange cur s₀.lastCell v d s₀) := by
  by_cases h : v.toNat ≤ 32767
  · exact .inl ⟨_, writeReg_of_le h⟩
  · cases hp : s.cfg.highWritePolicy with
    | fault => exact .inr ⟨by omega, rfl, writeReg_fault (by omega) hp⟩
    | mask15 => exact .inl ⟨_, writeReg_mask15 (by omega) hp⟩

/-- Everything Push can do (10_state.md R33). -/
theorem pushStack_cases (cur : Current) (v : Cell) (s : State) :
    (s.cfg.stackCapacity = some s.stack.length ∧
      pushStack cur v s = .raised (raise .stackOverflow cur s.lastCell 0 0 s)) ∨
    (s.cfg.stackCapacity ≠ some s.stack.length ∧
      pushStack cur v s = .ok () { s with stack := s.stack ++ [v] }) := by
  by_cases h : s.cfg.stackCapacity = some s.stack.length <;> simp [pushStack, h]

/-- Everything Pop can do (10_state.md R34). -/
theorem popStack_cases (cur : Current) (s : State) :
    (s.stack = [] ∧ popStack cur s = .raised (raise .stackUnderflow cur s.lastCell 0 0 s)) ∨
    (∃ below v, s.stack = below ++ [v] ∧ popStack cur s = .ok v { s with stack := below }) := by
  rcases List.eq_nil_or_concat s.stack with h | ⟨below, v, h⟩
  · exact .inl ⟨h, by simp [popStack, h]⟩
  · exact .inr ⟨below, v, by simpa using h, by simp [popStack, h]⟩

theorem popStack_append {cur : Current} {s : State} {below : List Cell} {v : Cell} (h : s.stack = below ++ [v]) :
    popStack cur s = .ok v { s with stack := below } := by simp [popStack, h]

theorem popStack_nil {cur : Current} {s : State} (h : s.stack = []) :
    popStack cur s = .raised (raise .stackUnderflow cur s.lastCell 0 0 s) := by simp [popStack, h]

/-- Where WriteReg does not raise, it writes v mod 32768, which is v in range (10_state.md R25). -/
theorem writeReg_stored {cur : Current} {d : RegIdx} {v : Cell} {s₀ s : State}
    (h : v.toNat ≤ 32767 ∨ s.cfg.highWritePolicy = .mask15) :
    writeReg cur d v s₀ s = s.setReg d (BitVec.ofNat 15 (v.toNat % 32768)) := by
  by_cases hv : v.toNat ≤ 32767
  · rw [writeReg_of_le hv, Nat.mod_eq_of_lt (by omega)]
  · exact writeReg_mask15 (by omega) (h.resolve_left hv)

/-- pc before the last cell consumed, where pc stands n + 1 cells after ipc (10_state.md R40). -/
theorem lastCell_add (s : State) (n : Nat) :
    ({ s with pc := s.pc + BitVec.ofNat 16 (n + 1) } : State).lastCell = s.pc + BitVec.ofNat 16 n := by
  simp only [State.lastCell, BitVec.ofNat_add, ← BitVec.add_assoc]
  exact BitVec.add_sub_cancel _ _

end Sys2Proof.Machine
end

