-- ==== Sys2Proof/Laws/Operands.lean ====
section
/-! SUPPORT. Operand decode: what ResolveValue and ResolveRegister do, and for each format the two things its prefix can do: hand
the decoded operands on, or stop at the first operand that does not decode (30_encoding.md R78). -/

namespace Sys2Proof.Machine

/-- A value operand is legal exactly where it has a value (30_encoding.md R75). -/
theorem valueOf_eq_none {s : State} {o : Operand} : valueOf s o = none ↔ o.legalIn .val = false := by
  cases o <;> simp [valueOf, Operand.legalIn, Operand.isVal]

theorem legal_of_valueOf {s : State} {o : Operand} {v : Value} (h : valueOf s o = some v) : o.legalIn .val = true := by
  cases o <;> simp_all [valueOf, Operand.legalIn, Operand.isVal]

/-- A destination operand is legal exactly where it names a register (30_encoding.md R76). -/
theorem indexOf_eq_none {s : State} {o : Operand} : indexOf s o = none ↔ o.legalIn .dst = false := by
  cases o <;> simp [indexOf, Operand.legalIn, Operand.isDst]

theorem indexOf_eq_some {s : State} {o : Operand} {i : RegIdx} : indexOf s o = some i ↔ o = .reg i := by
  cases o <;> simp [indexOf]

/-- The state after `n` cells are consumed. -/
def State.at (s : State) (n : Nat) : State := { s with pc := s.pc + BitVec.ofNat 16 n }

@[simp] theorem State.at_pc (s : State) (n : Nat) : (s.at n).pc = s.pc + BitVec.ofNat 16 n := rfl

theorem State.at_advance (s : State) (n : Nat) : (s.at n).advance = s.at (n + 1) := by
  simp [State.at, State.advance, BitVec.ofNat_add, BitVec.add_assoc]

theorem State.advance_eq_at (s : State) : s.advance = s.at 1 := rfl

theorem State.at_pc_toNat {s : State} {n : Nat} (h : s.pc.toNat + n < 65536) : (s.at n).pc.toNat = s.pc.toNat + n := by
  simp only [State.at_pc, BitVec.toNat_add, BitVec.toNat_ofNat]
  omega

@[simp] theorem State.at_lastCell (s : State) (n : Nat) : (s.at (n + 1)).lastCell = s.pc + BitVec.ofNat 16 n :=
  lastCell_add s n

@[simp] theorem valueOf_at (s : State) (n : Nat) (o : Operand) : valueOf (s.at n) o = valueOf s o := rfl
@[simp] theorem indexOf_at (s : State) (n : Nat) (o : Operand) : indexOf (s.at n) o = indexOf s o := rfl

/-- Operand position k of an instruction at ipc ≤ 32767, its cells up to k already consumed: its class's result, or the
operand fault of that position. -/
theorem fetchOperand_cases {α : Type} {op : Cell} {ops : List (Role × Operand)} {s : State} (k : Nat) (role : Role)
    (o : Operand) (use : State → Operand → Option α)
    (hk : ops[k]? = some (role, o)) (hpc : s.pc.toNat + k ≤ 32767)
    (hbefore : ∀ j ro, j < k → ops[j]? = some ro → ro.2.legalIn ro.1 = true)
    (huse : use (s.at (k + 1)) o = none → o.legalIn role = false) :
    (∃ a, use (s.at (k + 1)) o = some a ∧ s.pc.toNat + (k + 1) ≤ 32767 ∧
      fetchOperand ⟨s.pc, op⟩ o use (s.at (k + 1)) = .ok a (s.at (k + 2))) ∨
    (∃ t, OperandFault op ops s t ∧ fetchOperand ⟨s.pc, op⟩ o use (s.at (k + 1)) = .raised t) := by
  have hto : (s.at (k + 1)).pc.toNat = s.pc.toNat + (k + 1) := State.at_pc_toNat (by omega)
  by_cases hend : s.pc.toNat + k = 32767
  · right
    have hpc' : s.pc + BitVec.ofNat 16 (k + 1) = 32768 := by
      apply BitVec.eq_of_toNat_eq
      rw [← State.at_pc, hto]
      simp; omega
    refine ⟨_, ⟨k, role, o, hk, hbefore, .inl ⟨hend, rfl⟩⟩, ?_⟩
    have hp : (s.at (k + 1)).pastEnd = true := by simp only [State.pastEnd, hto]; simp; omega
    rw [fetchOperand, if_pos hp]
    simp only [raise, State.at, hpc']
  · have hp : (s.at (k + 1)).pastEnd = false := by simp only [State.pastEnd, hto]; simp; omega
    rw [fetchOperand, if_neg (by simp [hp])]
    cases hu : use (s.at (k + 1)) o with
    | some a => exact .inl ⟨a, rfl, by omega, by rw [State.at_advance]⟩
    | none =>
      refine .inr ⟨_, ⟨k, role, o, hk, hbefore, .inr ⟨by omega, huse hu, rfl⟩⟩, ?_⟩
      simp only [raise, State.at_advance]
      rfl

theorem resolveValue_cases {op : Cell} {ops : List (Role × Operand)} {s : State} (k : Nat) (o : Operand)
    (hk : ops[k]? = some (.val, o)) (hpc : s.pc.toNat + k ≤ 32767)
    (hbefore : ∀ j ro, j < k → ops[j]? = some ro → ro.2.legalIn ro.1 = true) :
    (∃ v, valueOf s o = some v ∧ s.pc.toNat + (k + 1) ≤ 32767 ∧
      resolveValue ⟨s.pc, op⟩ o (s.at (k + 1)) = .ok v (s.at (k + 2))) ∨
    (∃ t, OperandFault op ops s t ∧ resolveValue ⟨s.pc, op⟩ o (s.at (k + 1)) = .raised t) :=
  fetchOperand_cases k .val o valueOf hk hpc hbefore valueOf_eq_none.1

theorem resolveRegister_cases {op : Cell} {ops : List (Role × Operand)} {s : State} (k : Nat) (o : Operand)
    (hk : ops[k]? = some (.dst, o)) (hpc : s.pc.toNat + k ≤ 32767)
    (hbefore : ∀ j ro, j < k → ops[j]? = some ro → ro.2.legalIn ro.1 = true) :
    (∃ i, o = .reg i ∧ s.pc.toNat + (k + 1) ≤ 32767 ∧
      resolveRegister ⟨s.pc, op⟩ o (s.at (k + 1)) = .ok i (s.at (k + 2))) ∨
    (∃ t, OperandFault op ops s t ∧ resolveRegister ⟨s.pc, op⟩ o (s.at (k + 1)) = .raised t) := by
  obtain ⟨i, hi, h⟩ | h :=
    fetchOperand_cases (op := op) k .dst o indexOf hk hpc hbefore indexOf_eq_none.1
  · exact .inl ⟨i, indexOf_eq_some.1 hi, h⟩
  · exact .inr h

theorem formatN_eq (op : Cell) (s : State) (k : Current → State → State) : formatN op s k = k ⟨s.pc, op⟩ (s.at 1) := rfl

/-- Everything the prefix of format V can do. -/
theorem formatV_cases {op : Cell} {a : Operand} {s : State} (hpc : s.pc.toNat ≤ 32767) :
    (∃ u, valueOf s a = some u ∧ s.fits 1 ∧ ∀ k, formatV op a s k = k ⟨s.pc, op⟩ u (s.at 2)) ∨
    (∃ t, OperandFault op [(.val, a)] s t ∧ ∀ k, formatV op a s k = t) := by
  obtain ⟨u, hu, hf, he⟩ | ⟨t, ht, he⟩ :=
    resolveValue_cases (op := op) (ops := [(.val, a)]) (s := s) 0 a rfl hpc (by omega)
  · exact .inl ⟨u, hu, hf, fun k => by rw [formatV, formatN_eq, he]; rfl⟩
  · exact .inr ⟨t, ht, fun k => by rw [formatV, formatN_eq, he]; rfl⟩

/-- Everything the prefix of format R can do. -/
theorem formatR_cases {op : Cell} {d : Operand} {s : State} (hpc : s.pc.toNat ≤ 32767) :
    (∃ i, d = .reg i ∧ s.fits 1 ∧ ∀ k, formatR op d s k = k ⟨s.pc, op⟩ i (s.at 2)) ∨
    (∃ t, OperandFault op [(.dst, d)] s t ∧ ∀ k, formatR op d s k = t) := by
  obtain ⟨i, hi, hf, he⟩ | ⟨t, ht, he⟩ :=
    resolveRegister_cases (op := op) (ops := [(.dst, d)]) (s := s) 0 d rfl hpc (by omega)
  · exact .inl ⟨i, hi, hf, fun k => by rw [formatR, formatN_eq, he]; rfl⟩
  · exact .inr ⟨t, ht, fun k => by rw [formatR, formatN_eq, he]; rfl⟩

/-- An operand fault stays one where the instruction has more operands. -/
theorem OperandFault.append {op : Cell} {ops more : List (Role × Operand)} {s t : State} (h : OperandFault op ops s t) :
    OperandFault op (ops ++ more) s t := by
  obtain ⟨k, role, o, hk, hb, h⟩ := h
  have hlt : k < ops.length := (List.getElem?_eq_some_iff.1 hk).1
  refine ⟨k, role, o, by rwa [List.getElem?_append_left hlt], fun j ro hj hro => ?_, h⟩
  rw [List.getElem?_append_left (by omega)] at hro
  exact hb j ro hj hro

/-- Everything the prefix of format VV can do. -/
theorem formatVV_cases {op : Cell} {a b : Operand} {s : State} (hpc : s.pc.toNat ≤ 32767) :
    (∃ u v, valueOf s a = some u ∧ valueOf s b = some v ∧ s.fits 2 ∧
      ∀ k, formatVV op a b s k = k ⟨s.pc, op⟩ u v (s.at 3)) ∨
    (∃ t, OperandFault op [(.val, a), (.val, b)] s t ∧ ∀ k, formatVV op a b s k = t) := by
  obtain ⟨u, hu, hf, he⟩ | ⟨t, ht, he⟩ := formatV_cases (op := op) (a := a) hpc
  · obtain ⟨v, hv, hf', he'⟩ | ⟨t, ht, he'⟩ :=
      resolveValue_cases (op := op) (ops := [(.val, a), (.val, b)]) (s := s) 1 b rfl hf
        (fun j ro hj hro => by
          obtain rfl : j = 0 := by omega
          cases hro; exact legal_of_valueOf hu)
    · exact .inl ⟨u, v, hu, hv, hf', fun k => by rw [formatVV, he, he']; rfl⟩
    · exact .inr ⟨t, ht, fun k => by rw [formatVV, he, he']; rfl⟩
  · exact .inr ⟨t, ht.append (more := [(.val, b)]), fun k => by rw [formatVV, he]⟩

/-- Everything the prefix of format RV can do. -/
theorem formatRV_cases {op : Cell} {d a : Operand} {s : State} (hpc : s.pc.toNat ≤ 32767) :
    (∃ i u, d = .reg i ∧ valueOf s a = some u ∧ s.fits 2 ∧
      ∀ k, formatRV op d a s k = k ⟨s.pc, op⟩ i u (s.at 3)) ∨
    (∃ t, OperandFault op [(.dst, d), (.val, a)] s t ∧ ∀ k, formatRV op d a s k = t) := by
  obtain ⟨i, rfl, hf, he⟩ | ⟨t, ht, he⟩ := formatR_cases (op := op) (d := d) hpc
  · obtain ⟨u, hu, hf', he'⟩ | ⟨t, ht, he'⟩ :=
      resolveValue_cases (op := op) (ops := [(.dst, .reg i), (.val, a)]) (s := s) 1 a rfl hf
        (fun j ro hj hro => by
          obtain rfl : j = 0 := by omega
          cases hro; rfl)
    · exact .inl ⟨i, u, rfl, hu, hf', fun k => by rw [formatRV, he, he']; rfl⟩
    · exact .inr ⟨t, ht, fun k => by rw [formatRV, he, he']; rfl⟩
  · exact .inr ⟨t, ht.append (more := [(.val, a)]), fun k => by rw [formatRV, he]⟩

/-- Everything the prefix of format RVV can do. -/
theorem formatRVV_cases {op : Cell} {d a b : Operand} {s : State} (hpc : s.pc.toNat ≤ 32767) :
    (∃ i u v, d = .reg i ∧ valueOf s a = some u ∧ valueOf s b = some v ∧ s.fits 3 ∧
      ∀ k, formatRVV op d a b s k = k ⟨s.pc, op⟩ i u v (s.at 4)) ∨
    (∃ t, OperandFault op [(.dst, d), (.val, a), (.val, b)] s t ∧ ∀ k, formatRVV op d a b s k = t) := by
  obtain ⟨i, u, rfl, hu, hf, he⟩ | ⟨t, ht, he⟩ := formatRV_cases (op := op) (d := d) (a := a) hpc
  · obtain ⟨v, hv, hf', he'⟩ | ⟨t, ht, he'⟩ :=
      resolveValue_cases (op := op) (ops := [(.dst, .reg i), (.val, a), (.val, b)]) (s := s) 2 b rfl hf
        (fun j ro hj hro => by
          obtain rfl | rfl : j = 0 ∨ j = 1 := by omega
          · cases hro; rfl
          · cases hro; exact legal_of_valueOf hu)
    · exact .inl ⟨i, u, v, rfl, hu, hv, hf', fun k => by rw [formatRVV, he, he']; rfl⟩
    · exact .inr ⟨t, ht, fun k => by rw [formatRVV, he, he']; rfl⟩
  · exact .inr ⟨t, ht.append (more := [(.val, b)]), fun k => by rw [formatRVV, he]⟩

/-- One operand, from any state: its class's result, or a raise that changes nothing but pc, run state and fault record. -/
theorem fetchOperand_outcomes {α : Type} (cur : Current) (o : Operand) (use : State → Operand → Option α) (s : State) :
    (∃ a, use s o = some a ∧ fetchOperand cur o use s = .ok a s.advance) ∨
    (∃ pc f, fetchOperand cur o use s = .raised { s with pc := pc, runState := .faulted, fault := f }) := by
  unfold fetchOperand
  split
  · exact .inr ⟨_, _, rfl⟩
  · split
    · exact .inl ⟨_, ‹_›, rfl⟩
    · exact .inr ⟨_, _, rfl⟩

/-- What holds after format V, whatever pc: enough to check the continuation and the raise, which touches nothing but pc,
run state and fault record. The same for the other formats below. -/
theorem formatV_elim {P : State → Prop} {op : Cell} {a : Operand} {s : State} {k : Current → Value → State → State}
    (hfault : ∀ pc f, P { s with pc := pc, runState := .faulted, fault := f })
    (hk : ∀ u pc, valueOf s a = some u → P (k ⟨s.pc, op⟩ u { s with pc := pc })) : P (formatV op a s k) := by
  rw [formatV, formatN_eq, resolveValue]
  obtain ⟨u, hu, he⟩ | ⟨pc, f, he⟩ := fetchOperand_outcomes ⟨s.pc, op⟩ a valueOf (s.at 1) <;> rw [he]
  · exact hk u _ hu
  · exact hfault pc f

theorem formatR_elim {P : State → Prop} {op : Cell} {d : Operand} {s : State} {k : Current → RegIdx → State → State}
    (hfault : ∀ pc f, P { s with pc := pc, runState := .faulted, fault := f })
    (hk : ∀ i pc, d = .reg i → P (k ⟨s.pc, op⟩ i { s with pc := pc })) : P (formatR op d s k) := by
  rw [formatR, formatN_eq, resolveRegister]
  obtain ⟨i, hi, he⟩ | ⟨pc, f, he⟩ := fetchOperand_outcomes ⟨s.pc, op⟩ d indexOf (s.at 1) <;> rw [he]
  · exact hk i _ (indexOf_eq_some.1 hi)
  · exact hfault pc f

theorem formatVV_elim {P : State → Prop} {op : Cell} {a b : Operand} {s : State}
    {k : Current → Value → Value → State → State}
    (hfault : ∀ pc f, P { s with pc := pc, runState := .faulted, fault := f })
    (hk : ∀ u v pc, valueOf s a = some u → valueOf s b = some v → P (k ⟨s.pc, op⟩ u v { s with pc := pc })) :
    P (formatVV op a b s k) := by
  refine formatV_elim hfault fun u pc hu => ?_
  rw [resolveValue]
  obtain ⟨v, hv, he⟩ | ⟨pc', f, he⟩ := fetchOperand_outcomes ⟨s.pc, op⟩ b valueOf { s with pc := pc } <;> rw [he]
  · exact hk u v _ hu hv
  · exact hfault pc' f

theorem formatRV_elim {P : State → Prop} {op : Cell} {d a : Operand} {s : State}
    {k : Current → RegIdx → Value → State → State}
    (hfault : ∀ pc f, P { s with pc := pc, runState := .faulted, fault := f })
    (hk : ∀ i u pc, d = .reg i → valueOf s a = some u → P (k ⟨s.pc, op⟩ i u { s with pc := pc })) :
    P (formatRV op d a s k) := by
  refine formatR_elim hfault fun i pc hi => ?_
  rw [resolveValue]
  obtain ⟨v, hv, he⟩ | ⟨pc', f, he⟩ := fetchOperand_outcomes ⟨s.pc, op⟩ a valueOf { s with pc := pc } <;> rw [he]
  · exact hk i v _ hi hv
  · exact hfault pc' f

theorem formatRVV_elim {P : State → Prop} {op : Cell} {d a b : Operand} {s : State}
    {k : Current → RegIdx → Value → Value → State → State}
    (hfault : ∀ pc f, P { s with pc := pc, runState := .faulted, fault := f })
    (hk : ∀ i u v pc, d = .reg i → valueOf s a = some u → valueOf s b = some v →
      P (k ⟨s.pc, op⟩ i u v { s with pc := pc })) :
    P (formatRVV op d a b s k) := by
  refine formatRV_elim hfault fun i u pc hi hu => ?_
  rw [resolveValue]
  obtain ⟨v, hv, he⟩ | ⟨pc', f, he⟩ := fetchOperand_outcomes ⟨s.pc, op⟩ b valueOf { s with pc := pc } <;> rw [he]
  · exact hk i u v _ hi hu hv
  · exact hfault pc' f

/-- At most one operand fault: the first in position order (60_exceptions.md R192). -/
theorem OperandFault.unique {op : Cell} {ops : List (Role × Operand)} {s t t' : State}
    (h : OperandFault op ops s t) (h' : OperandFault op ops s t') : t = t' := by
  obtain ⟨k, role, o, hk, hb, hc⟩ := h
  obtain ⟨k', role', o', hk', hb', hc'⟩ := h'
  rcases Nat.lt_trichotomy k k' with hlt | rfl | hlt
  · have hl := hb' k _ hlt hk
    obtain ⟨he, rfl⟩ | ⟨hl', hill, rfl⟩ := hc
    · obtain ⟨he', -⟩ | ⟨he', -⟩ := hc' <;> omega
    · simp_all
  · rw [hk] at hk'
    cases hk'
    obtain ⟨he, rfl⟩ | ⟨hl', hill, rfl⟩ := hc <;> obtain ⟨he', rfl⟩ | ⟨hl'', hill', rfl⟩ := hc' <;> first | rfl | omega
  · have hl := hb k' _ hlt hk'
    obtain ⟨he, rfl⟩ | ⟨hl', hill, rfl⟩ := hc'
    · obtain ⟨he', -⟩ | ⟨he', -⟩ := hc <;> omega
    · simp_all

/-- No operand fault where all operands are legal and all cells stand in memory. -/
theorem OperandFault.absent {op : Cell} {ops : List (Role × Operand)} {s t : State} (h : OperandFault op ops s t) :
    ¬ ((∀ ro ∈ ops, ro.2.legalIn ro.1 = true) ∧ s.fits ops.length) := by
  rintro ⟨hl, hf⟩
  obtain ⟨k, role, o, hk, -, hc⟩ := h
  have hlt : k < ops.length := (List.getElem?_eq_some_iff.1 hk).1
  obtain ⟨he, -⟩ | ⟨-, hill, -⟩ := hc
  · simp only [State.fits] at hf; omega
  · have := hl _ (List.mem_of_getElem? hk)
    simp_all

/-- Where all operands decode and all cells stand in memory, format V hands the value on with pc past the instruction. The
same for the other formats below. -/
theorem formatV_ok {op : Cell} {a : Operand} {s : State} {u : Value} (hu : valueOf s a = some u) (hf : s.fits 1)
    (k : Current → Value → State → State) : formatV op a s k = k ⟨s.pc, op⟩ u (s.at 2) := by
  obtain ⟨u', hu', -, he⟩ | ⟨t, ht, -⟩ := formatV_cases (op := op) (a := a) (s := s) (Nat.le_trans (Nat.le_add_right _ _) hf)
  · rw [hu] at hu'; cases hu'; exact he k
  · exact (ht.absent ⟨by simp [legal_of_valueOf hu], hf⟩).elim

theorem formatR_ok {op : Cell} {d : RegIdx} {s : State} (hf : s.fits 1) (k : Current → RegIdx → State → State) :
    formatR op (.reg d) s k = k ⟨s.pc, op⟩ d (s.at 2) := by
  obtain ⟨i, hi, -, he⟩ | ⟨t, ht, -⟩ := formatR_cases (op := op) (d := .reg d) (s := s) (Nat.le_trans (Nat.le_add_right _ _) hf)
  · cases hi; exact he k
  · exact (ht.absent ⟨by simp; rfl, hf⟩).elim

theorem formatVV_ok {op : Cell} {a b : Operand} {s : State} {u v : Value} (hu : valueOf s a = some u)
    (hv : valueOf s b = some v) (hf : s.fits 2) (k : Current → Value → Value → State → State) :
    formatVV op a b s k = k ⟨s.pc, op⟩ u v (s.at 3) := by
  obtain ⟨u', v', hu', hv', -, he⟩ | ⟨t, ht, -⟩ :=
    formatVV_cases (op := op) (a := a) (b := b) (s := s) (Nat.le_trans (Nat.le_add_right _ _) hf)
  · rw [hu] at hu'; rw [hv] at hv'; cases hu'; cases hv'; exact he k
  · exact (ht.absent ⟨by simp [legal_of_valueOf hu, legal_of_valueOf hv], hf⟩).elim

theorem formatRV_ok {op : Cell} {d : RegIdx} {a : Operand} {s : State} {u : Value} (hu : valueOf s a = some u)
    (hf : s.fits 2) (k : Current → RegIdx → Value → State → State) :
    formatRV op (.reg d) a s k = k ⟨s.pc, op⟩ d u (s.at 3) := by
  obtain ⟨i, u', hi, hu', -, he⟩ | ⟨t, ht, -⟩ :=
    formatRV_cases (op := op) (d := .reg d) (a := a) (s := s) (Nat.le_trans (Nat.le_add_right _ _) hf)
  · rw [hu] at hu'; cases hi; cases hu'; exact he k
  · exact (ht.absent ⟨by simp [legal_of_valueOf hu]; rfl, hf⟩).elim

theorem formatRVV_ok {op : Cell} {d : RegIdx} {a b : Operand} {s : State} {u v : Value} (hu : valueOf s a = some u)
    (hv : valueOf s b = some v) (hf : s.fits 3) (k : Current → RegIdx → Value → Value → State → State) :
    formatRVV op (.reg d) a b s k = k ⟨s.pc, op⟩ d u v (s.at 4) := by
  obtain ⟨i, u', v', hi, hu', hv', -, he⟩ | ⟨t, ht, -⟩ :=
    formatRVV_cases (op := op) (d := .reg d) (a := a) (b := b) (s := s) (Nat.le_trans (Nat.le_add_right _ _) hf)
  · rw [hu] at hu'; rw [hv] at hv'; cases hi; cases hu'; cases hv'; exact he k
  · exact (ht.absent ⟨by simp [legal_of_valueOf hu, legal_of_valueOf hv]; rfl, hf⟩).elim

end Sys2Proof.Machine
end

