-- ==== Sys2Proof/Laws/Alu.lean ====
section
/-! SUPPORT. Every ALU result is in 0..32767, so WriteReg writes it as it is (43_alu.md R148); its value for each operation. -/

namespace Sys2Proof.Machine

theorem toNat_truth (b : Bool) : (truth b).toNat = if b then 1 else 0 := by cases b <;> rfl

@[simp] theorem toNat_aluAdd (a b : Value) : (aluAdd a b).toNat = (a.toNat + b.toNat) % 32768 := by
  rw [aluAdd, BitVec.toNat_ofNat]; omega

@[simp] theorem toNat_aluMult (a b : Value) : (aluMult a b).toNat = a.toNat * b.toNat % 32768 := by
  rw [aluMult, BitVec.toNat_ofNat]; omega

@[simp] theorem toNat_aluMod (a b : Value) : (aluMod a b).toNat = a.toNat % b.toNat := by
  have h : a.toNat % b.toNat ≤ a.toNat := Nat.mod_le _ _
  have := a.isLt
  rw [aluMod, BitVec.toNat_ofNat]; omega

/-- AND of two values is the value of the 15-bit AND. -/
@[simp] theorem aluAnd_eq (a b : Value) : aluAnd a b = toCell (a &&& b) := by
  simp [aluAnd, toCell, BitVec.setWidth_and]

@[simp] theorem aluOr_eq (a b : Value) : aluOr a b = toCell (a ||| b) := by
  simp [aluOr, toCell, BitVec.setWidth_or]

/-- The complement restricted to 15 bits (43_alu.md R147: "= 32767 - a"). -/
theorem aluNot_eq (a : Value) : aluNot a = toCell (~~~a) := by
  apply BitVec.eq_of_getLsbD_eq
  intro i hi
  have : (0x7FFF : Cell).getLsbD i = decide (i < 15) := by
    interval_cases i <;> rfl
  simp only [aluNot, toCell, BitVec.getLsbD_xor, BitVec.getLsbD_setWidth, BitVec.getLsbD_not, hi, this]
  by_cases h : i < 15
  · simp [h]
  · simp [h, BitVec.getLsbD_of_ge a i (by omega)]

@[simp] theorem toNat_aluNot (a : Value) : (aluNot a).toNat = 32767 - a.toNat := by
  rw [aluNot_eq, toNat_toCell, BitVec.toNat_not]

end Sys2Proof.Machine
end

