-- ==== Sys2Proof/Laws/Decode.lean ====
section
/-! SUPPORT. Operand cells and their classes are inverse to each other (30_encoding.md R71). -/

namespace Sys2Proof

@[simp] theorem encode_lit_toNat (v : Value) : (Operand.lit v).encode.toNat = v.toNat := by
  have := v.isLt
  simp only [Operand.encode, toCell, BitVec.toNat_setWidth]
  omega

@[simp] theorem encode_reg_toNat (i : RegIdx) : (Operand.reg i).encode.toNat = 32768 + i.val := by
  have := i.isLt
  simp only [Operand.encode, BitVec.toNat_ofNat]
  omega

@[simp] theorem encode_invalid (raw : Cell) : (Operand.invalid raw).encode = raw := rfl

theorem classify_lit {raw : Cell} (h : raw.toNat ≤ 32767) : classify raw = .lit (BitVec.ofNat 15 raw.toNat) := by
  rw [classify, if_pos h]

theorem classify_reg {raw : Cell} (h : 32767 < raw.toNat) (h' : raw.toNat ≤ 32775) :
    classify raw = .reg (Fin.ofNat 8 (raw.toNat - 32768)) := by
  rw [classify, if_neg (by omega), if_pos h']

theorem classify_invalid {raw : Cell} (h : 32775 < raw.toNat) : classify raw = .invalid raw := by
  rw [classify, if_neg (by omega), if_neg (by omega)]

/-- No bit of an operand cell is dropped by its class. -/
@[simp] theorem encode_classify (raw : Cell) : (classify raw).encode = raw := by
  apply BitVec.eq_of_toNat_eq
  rcases Nat.lt_or_ge 32767 raw.toNat with h | h
  · rcases Nat.lt_or_ge 32775 raw.toNat with h' | h'
    · rw [classify_invalid h', encode_invalid]
    · rw [classify_reg h h', encode_reg_toNat, Fin.val_ofNat]; omega
  · rw [classify_lit h, encode_lit_toNat, BitVec.toNat_ofNat]; omega

/-- The decoder's operands have the class of R71. -/
@[simp] theorem classed_classify (raw : Cell) : (classify raw).classed = true := by
  rcases Nat.lt_or_ge 32767 raw.toNat with h | h
  · rcases Nat.lt_or_ge 32775 raw.toNat with h' | h'
    · rw [classify_invalid h']; exact decide_eq_true h'
    · rw [classify_reg h h']; rfl
  · rw [classify_lit h]; rfl

/-- The cell of an operand of the right class is read back as that operand. -/
theorem classify_encode {o : Operand} (h : o.classed = true) : classify o.encode = o := by
  cases o with
  | lit v =>
    have := v.isLt
    rw [classify_lit (by rw [encode_lit_toNat]; omega), encode_lit_toNat, BitVec.ofNat_toNat, BitVec.setWidth_eq]
  | reg i =>
    have := i.isLt
    rw [classify_reg (by rw [encode_reg_toNat]; omega) (by rw [encode_reg_toNat]; omega), encode_reg_toNat,
      Nat.add_sub_cancel_left]
    exact congrArg Operand.reg (Fin.ext (Nat.mod_eq_of_lt this))
  | invalid raw => exact classify_invalid (of_decide_eq_true h)

/-- Every opcode is one of 0..21 (30_encoding.md R80). -/
theorem Instr.opcode_le (i : Instr) : i.opcode.toNat ≤ 21 := by cases i <;> simp [Instr.opcode]

/-- An opcode cell above 21 is refused by its value (30_encoding.md R79). -/
theorem decode_invalidOpcode {op : Cell} (rest : List Cell) (h : 21 < op.toNat) :
    decode (op :: rest) = .error (.invalidOpcode op) := by
  simp only [decode]
  split <;> first | omega | rfl

/-- An operand legal in some role has the class of R71. -/
theorem Operand.classed_of_legal {o : Operand} {r : Role} (h : o.legalIn r = true) : o.classed = true := by
  cases r <;> cases o <;> simp_all [Operand.legalIn, Operand.isDst, Operand.isVal, Operand.classed]

/-- Well-formedness, said over the operand list (30_encoding.md R72, R80). -/
theorem Instr.wf_iff {i : Instr} : i.wf = true ↔ ∀ ro ∈ i.operands, ro.2.legalIn ro.1 = true := by
  cases i <;> simp [Instr.wf, Instr.operands, Operand.legalIn, and_assoc]

end Sys2Proof
end

