-- ==== Sys2Proof/Laws/Cycle.lean ====
section
/-! SUPPORT. Fetch: what the opcode fetch and decode can do, and that a word placed for the next fetch is the one decoded. -/

namespace Sys2Proof.Machine

/-- The decoder is total on four cells: an instruction of the first cell's opcode, or a refusal that names the cell
(30_encoding.md R79). -/
theorem decode_four (a b c d : Cell) :
    (a.toNat ≤ 21 ∧ ∃ i rest, decode [a, b, c, d] = .ok (i, rest) ∧ i.opcode = a) ∨
      (21 < a.toNat ∧ decode [a, b, c, d] = .error (.invalidOpcode a)) := by
  by_cases h : a.toNat ≤ 21
  · refine .inl ⟨h, ?_⟩
    have ha : a = BitVec.ofNat 16 a.toNat := by simp
    generalize a.toNat = n at h ha
    subst ha
    interval_cases n <;> exact ⟨_, _, rfl, rfl⟩
  · exact .inr ⟨by omega, decode_invalidOpcode _ (by omega)⟩

/-- Everything the fetch of an instruction can do (30_encoding.md R86). -/
theorem fetchInstr_cases (s : State) :
    (32767 < s.pc.toNat ∧ fetchInstr s = .error (raise .addressOutOfRange ⟨s.pc, 0⟩ s.pc 0 0 s)) ∨
    (s.pc.toNat ≤ 32767 ∧ (s.cellAt s.pc.toNat).toNat ≤ 21 ∧
      ∃ i rest, decode s.window = .ok (i, rest) ∧ i.opcode = s.cellAt s.pc.toNat ∧ fetchInstr s = .ok i) ∨
    (s.pc.toNat ≤ 32767 ∧ 21 < (s.cellAt s.pc.toNat).toNat ∧
      fetchInstr s = .error (raise .invalidOpcode ⟨s.pc, s.cellAt s.pc.toNat⟩ s.pc (s.cellAt s.pc.toNat) 0 s.advance)) := by
  by_cases h : 32767 < s.pc.toNat
  · exact .inl ⟨h, by simp [fetchInstr, State.pastEnd, h]⟩
  · right
    have hp : s.pastEnd = false := by simpa [State.pastEnd] using h
    rcases decode_four (s.cellAt s.pc.toNat) (s.cellAt (s.pc.toNat + 1)) (s.cellAt (s.pc.toNat + 2))
        (s.cellAt (s.pc.toNat + 3)) with ⟨hc, i, rest, hd, ho⟩ | ⟨hc, hd⟩
    · exact .inl ⟨by omega, hc, i, rest, hd, ho, by rw [fetchInstr, if_neg (by simp [hp]), State.window, hd]⟩
    · exact .inr ⟨by omega, hc, by rw [fetchInstr, if_neg (by simp [hp]), State.window, hd]⟩

/-- A fetched opcode cell inside memory is the memory cell at pc (30_encoding.md R74). -/
theorem State.cellAt_of_lt {s : State} {a : Nat} (h : a < 32768) : s.cellAt a = s.memRead (BitVec.ofNat 15 a) := by
  rw [State.cellAt, if_pos h]

/-- With room for four cells, the window shows exactly the placed word. -/
theorem window_withFetchWord {s : State} (nbits w : Nat) (h : s.pc.toNat + 3 < 32768) :
    (s.withFetchWord nbits w).window = tableCells nbits w := by
  have key : ∀ k, k < 4 → (s.withFetchWord nbits w).cellAt (s.pc.toNat + k) = (tableCells nbits w)[k]! := by
    intro k hk
    rw [State.cellAt_of_lt (by omega), State.memRead, State.withFetchWord]
    have hb : (BitVec.ofNat 15 (s.pc.toNat + k)).toNat = s.pc.toNat + k := by
      rw [BitVec.toNat_ofNat]; omega
    rw [hb, Memory.lookup_place, if_pos ⟨by omega, by simp [tableCells]; omega, by omega⟩]
    have hk' : s.pc.toNat + k - s.pc.toNat = k := by omega
    rw [hk']
    interval_cases k <;> rfl
  have h0 := key 0 (by omega)
  have h1 := key 1 (by omega)
  have h2 := key 2 (by omega)
  have h3 := key 3 (by omega)
  simp only [Nat.add_zero] at h0
  show [_, _, _, _] = _
  rw [show (s.withFetchWord nbits w).pc = s.pc from rfl, h0, h1, h2, h3]
  rfl

/-- The very next step runs the instruction that `decodeTableWord` reads (log entry 13). -/
theorem step_withFetchWord {s : State} {nbits w : Nat} {i : Instr} (h : s.pc.toNat + 3 < 32768)
    (hi : decodeTableWord nbits w = some i) :
    step (s.withFetchWord nbits w) = exec i (s.withFetchWord nbits w) := by
  unfold decodeTableWord at hi
  split at hi
  · rename_i j rest hd
    cases hi
    rw [← window_withFetchWord nbits w h] at hd
    have hp : (s.withFetchWord nbits w).pastEnd = false :=
      decide_eq_false (by show ¬ 32767 < s.pc.toNat; omega)
    have hf : fetchInstr (s.withFetchWord nbits w) = .ok i := by
      rw [fetchInstr, if_neg (by simp [hp]), hd]
    have hr : (s.withFetchWord nbits w).runState = .running := rfl
    rw [step, hr]
    simp only [hf]
  · cases hi

end Sys2Proof.Machine
end

