-- ==== Sys2Proof/Laws/Exec.lean ====
section
/-! SUPPORT. Everything an instruction can leave behind, said once for all 22. -/

namespace Sys2Proof.Machine

/-- What holds after WriteReg. -/
theorem writeReg_elim {P : State → Prop} {cur d v} {s₀ s : State}
    (hw : ∀ w, P (s.setReg d w))
    (hr : ∀ f, f.kind = .registerValueOutOfRange → f.ipc = cur.ipc → P { s₀ with runState := .faulted, fault := f }) :
    P (writeReg cur d v s₀ s) := by
  rcases writeReg_cases cur d v s₀ s with ⟨w, h⟩ | ⟨-, -, h⟩ <;> rw [h]
  · exact hw w
  · exact hr _ rfl rfl

/-- Everything an instruction can leave, whatever the state: it raised (nothing but pc, run state and fault record changed), or
it had its one effect beside the pc advance (30_encoding.md R88). To show that P holds after every instruction, show it of
each of these ten forms. -/
theorem exec_elim {P : Instr → State → Prop} {s : State}
    (faulted : ∀ i pc f, P i { s with pc := pc, runState := .faulted, fault := f })
    (pcOnly : ∀ i pc, P i { s with pc := pc })
    (halt : ∀ pc, P .halt { s with pc := pc, runState := .halted })
    (wr : ∀ i d w pc, i.operands.head? = some (.dst, .reg d) → (∀ x, i ≠ .inp x) →
      P i { s with pc := pc, x := s.x.set d.val w d.isLt })
    (popw : ∀ d w pc b v, s.stack = b ++ [v] →
      P (.pop (.reg d)) { s with pc := pc, stack := b, x := s.x.set d.val w d.isLt })
    (retp : ∀ pc b v, s.stack = b ++ [v] → P .ret { s with pc := pc, stack := b })
    (push : ∀ i pc v, ((∃ a, i = .push a) ∨ (∃ a, i = .call a)) →
      P i { s with pc := pc, stack := s.stack ++ [v] })
    (wm : ∀ a b u v pc, valueOf s a = some u → valueOf s b = some v →
      P (.wmem a b) { s with pc := pc, mem := s.mem.write u.toNat (toCell v) })
    (out : ∀ a v pc, valueOf s a = some v → P (.out a) { s with pc := pc, io := s.io ++ [.out v] })
    (inp : ∀ d pc, P (.inp (.reg d)) { s with pc := pc, runState := .waitInput d false })
    (i : Instr) {t : State} (h : exec i s = .next t) : P i t := by
  cases i with
  | halt => cases h; exact halt _
  | noop => cases h; exact pcOnly _ _
  | ret =>
    cases h; rw [formatN_eq]
    rcases popStack_cases ⟨s.pc, 18⟩ (s.at 1) with ⟨-, h⟩ | ⟨b, v, hs, h⟩ <;> rw [h]
    · exact faulted _ _ _
    · exact retp _ b v hs
  | jmp a => cases h; exact formatV_elim (faulted _) fun u pc hu => pcOnly _ _
  | jt a b => cases h; exact formatVV_elim (faulted _) fun u v pc hu hv => by split <;> exact pcOnly _ _
  | jf a b => cases h; exact formatVV_elim (faulted _) fun u v pc hu hv => by split <;> exact pcOnly _ _
  | call a =>
    cases h; refine formatV_elim (faulted _) fun u pc hu => ?_
    rcases pushStack_cases ⟨s.pc, 17⟩ pc { s with pc := pc } with ⟨-, h⟩ | ⟨-, h⟩ <;> simp only [h]
    · exact faulted _ _ _
    · exact push _ _ _ (.inr ⟨a, rfl⟩)
  | push a =>
    cases h; refine formatV_elim (faulted _) fun u pc hu => ?_
    rcases pushStack_cases ⟨s.pc, 2⟩ (toCell u) { s with pc := pc } with ⟨-, h⟩ | ⟨-, h⟩ <;> simp only [h]
    · exact faulted _ _ _
    · exact push _ _ _ (.inl ⟨a, rfl⟩)
  | pop a =>
    cases h; refine formatR_elim (faulted _) fun d pc hd => ?_
    subst hd
    rcases popStack_cases ⟨s.pc, 3⟩ { s with pc := pc } with ⟨-, h⟩ | ⟨b, v, hs, h⟩ <;> simp only [h]
    · exact faulted _ _ _
    · exact writeReg_elim (fun w => popw _ _ _ b v hs) fun f _ _ => faulted _ _ _
  | wmem a b => cases h; exact formatVV_elim (faulted _) fun u v pc hu hv => wm _ _ _ _ _ hu hv
  | out a => cases h; exact formatV_elim (faulted _) fun u pc hu => out _ _ _ hu
  | inp a => cases h; exact formatR_elim (faulted _) fun d pc hd => hd ▸ inp _ _
  | set a b | rmem a b | not a b =>
    cases h
    exact formatRV_elim (faulted _) fun i u pc hi hu =>
      writeReg_elim (fun w => wr _ _ _ _ (by rw [hi]; rfl) (by simp)) fun f _ _ => faulted _ _ _
  | eq d a b | gt d a b | add d a b | mult d a b | and d a b | or d a b =>
    cases h
    exact formatRVV_elim (faulted _) fun i u v pc hi hu hv =>
      writeReg_elim (fun w => wr _ _ _ _ (by rw [hi]; rfl) (by simp)) fun f _ _ => faulted _ _ _
  | mod d a b =>
    cases h
    exact formatRVV_elim (faulted _) fun i u v pc hi hu hv => by
      split
      · exact faulted _ _ _
      · exact writeReg_elim (fun w => wr _ _ _ _ (by rw [hi]; rfl) (by simp)) fun f _ _ => faulted _ _ _

end Sys2Proof.Machine
end

