-- ==== Sys2Proof/Laws/PerInstr.lean ====
section
/-! SUPPORT. Per-instruction facts about the syntax and the encoding (30_encoding.md R70, R72, R80). -/

namespace Sys2Proof.Laws

/-- The format of an instruction (30_encoding.md R73, R80): its opcode cell is one of 0..21, its operand cells follow in
position order, and well-formedness is exactly that each operand is legal in its role. -/
def Layout.Statement (i : Instr) : Prop :=
  i.opcode.toNat ≤ 21 ∧ (encode i).head? = some i.opcode ∧ (encode i).length = i.operands.length + 1 ∧
    (i.wf = true ↔ ∀ ro ∈ i.operands, ro.2.legalIn ro.1 = true)

theorem Layout.halt : Layout.Statement .halt :=
  ⟨Instr.opcode_le _, rfl, rfl, Instr.wf_iff⟩
theorem Layout.set (a b : Operand) : Layout.Statement (.set a b) :=
  ⟨Instr.opcode_le _, rfl, rfl, Instr.wf_iff⟩
theorem Layout.push (a : Operand) : Layout.Statement (.push a) :=
  ⟨Instr.opcode_le _, rfl, rfl, Instr.wf_iff⟩
theorem Layout.pop (a : Operand) : Layout.Statement (.pop a) :=
  ⟨Instr.opcode_le _, rfl, rfl, Instr.wf_iff⟩
theorem Layout.eq (a b c : Operand) : Layout.Statement (.eq a b c) :=
  ⟨Instr.opcode_le _, rfl, rfl, Instr.wf_iff⟩
theorem Layout.gt (a b c : Operand) : Layout.Statement (.gt a b c) :=
  ⟨Instr.opcode_le _, rfl, rfl, Instr.wf_iff⟩
theorem Layout.jmp (a : Operand) : Layout.Statement (.jmp a) :=
  ⟨Instr.opcode_le _, rfl, rfl, Instr.wf_iff⟩
theorem Layout.jt (a b : Operand) : Layout.Statement (.jt a b) :=
  ⟨Instr.opcode_le _, rfl, rfl, Instr.wf_iff⟩
theorem Layout.jf (a b : Operand) : Layout.Statement (.jf a b) :=
  ⟨Instr.opcode_le _, rfl, rfl, Instr.wf_iff⟩
theorem Layout.add (a b c : Operand) : Layout.Statement (.add a b c) :=
  ⟨Instr.opcode_le _, rfl, rfl, Instr.wf_iff⟩
theorem Layout.mult (a b c : Operand) : Layout.Statement (.mult a b c) :=
  ⟨Instr.opcode_le _, rfl, rfl, Instr.wf_iff⟩
theorem Layout.mod (a b c : Operand) : Layout.Statement (.mod a b c) :=
  ⟨Instr.opcode_le _, rfl, rfl, Instr.wf_iff⟩
theorem Layout.and (a b c : Operand) : Layout.Statement (.and a b c) :=
  ⟨Instr.opcode_le _, rfl, rfl, Instr.wf_iff⟩
theorem Layout.or (a b c : Operand) : Layout.Statement (.or a b c) :=
  ⟨Instr.opcode_le _, rfl, rfl, Instr.wf_iff⟩
theorem Layout.not (a b : Operand) : Layout.Statement (.not a b) :=
  ⟨Instr.opcode_le _, rfl, rfl, Instr.wf_iff⟩
theorem Layout.rmem (a b : Operand) : Layout.Statement (.rmem a b) :=
  ⟨Instr.opcode_le _, rfl, rfl, Instr.wf_iff⟩
theorem Layout.wmem (a b : Operand) : Layout.Statement (.wmem a b) :=
  ⟨Instr.opcode_le _, rfl, rfl, Instr.wf_iff⟩
theorem Layout.call (a : Operand) : Layout.Statement (.call a) :=
  ⟨Instr.opcode_le _, rfl, rfl, Instr.wf_iff⟩
theorem Layout.ret : Layout.Statement .ret :=
  ⟨Instr.opcode_le _, rfl, rfl, Instr.wf_iff⟩
theorem Layout.out (a : Operand) : Layout.Statement (.out a) :=
  ⟨Instr.opcode_le _, rfl, rfl, Instr.wf_iff⟩
theorem Layout.inp (a : Operand) : Layout.Statement (.inp a) :=
  ⟨Instr.opcode_le _, rfl, rfl, Instr.wf_iff⟩
theorem Layout.noop : Layout.Statement .noop :=
  ⟨Instr.opcode_le _, rfl, rfl, Instr.wf_iff⟩

end Sys2Proof.Laws
end

