-- ==== Sys2Proof/Laws/Run.lean ====
section
/-! SUPPORT. Running the core for several steps: one step first, then the rest. -/

namespace Sys2Proof.Machine

@[simp] theorem runSteps_zero (s : State) : runSteps 0 s = .next s := rfl

/-- n + 1 steps from a state whose step answers a next state. -/
theorem runSteps_succ {s t : State} (n : Nat) (h : step s = .next t) : runSteps (n + 1) s = runSteps n t := by
  rw [runSteps, h]

/-- A state that steps to itself stays. -/
theorem runSteps_of_fixed {s : State} (n : Nat) (h : step s = .next s) : runSteps n s = .next s := by
  induction n with
  | zero => rfl
  | succ n ih => rw [runSteps_succ n h, ih]

/-- The same for a machine of the host's interface. -/
theorem run_succ_of_next (M : Host.Core) {s t : M.State} (n : Nat) (h : M.step s = .next t) : M.run (n + 1) s = M.run n t := by
  rw [Host.Core.run.eq_def]
  simp only [h]

/-- Every instruction answers a next state, whatever its operands: an error is the next state Faulted (log entry 5). -/
theorem exec_next (i : Instr) (s : State) : ∃ t, exec i s = .next t := by
  cases i <;> exact ⟨_, rfl⟩

/-- Every step answers a next state. -/
theorem step_next (s : State) : ∃ t, step s = .next t := by
  unfold step
  split
  · split
    · exact exec_next _ s
    · exact ⟨_, rfl⟩
  · exact ⟨_, rfl⟩
  · exact ⟨_, rfl⟩
  · exact ⟨_, rfl⟩

/-- Everything a step can do, by run state (30_encoding.md R86, 70_reset_and_hazards.md R219). -/
theorem step_cases {s t : State} (h : step s = .next t) :
    (s.runState = .running ∧ s.pc.toNat ≤ 32767 ∧ ∃ i, fetchInstr s = .ok i ∧ exec i s = .next t) ∨
    (s.runState = .running ∧ fetchInstr s = .error t) ∨
    (∃ d, s.runState = .waitInput d true ∧ t = s) ∨
    (∃ d, s.runState = .waitInput d false ∧ t = inputStep d s) ∨
    ((s.runState = .halted ∨ s.runState = .faulted) ∧ t = s) := by
  unfold step at h
  split at h
  · rename_i hr
    split at h
    · rename_i i hi
      refine .inl ⟨hr, ?_, i, hi, h⟩
      rcases fetchInstr_cases s with ⟨-, he⟩ | ⟨hp, -⟩ | ⟨hp, -⟩
      · rw [he] at hi; cases hi
      · exact hp
      · exact hp
    · cases h; exact .inr (.inl ⟨hr, ‹_›⟩)
  · rename_i d e hr
    cases h
    cases e
    · exact .inr (.inr (.inr (.inl ⟨d, hr, rfl⟩)))
    · exact .inr (.inr (.inl ⟨d, hr, rfl⟩))
  · cases h; exact .inr (.inr (.inr (.inr ⟨.inl ‹_›, rfl⟩)))
  · cases h; exact .inr (.inr (.inr (.inr ⟨.inr ‹_›, rfl⟩)))

/-- Everything an input step can do (44_io.md R161). -/
theorem inputStep_cases (s : State) (d : RegIdx) :
    (s.input = [] ∧ inputStep d s = s) ∨
    ∃ e rest, s.input = e :: rest ∧
      ((e = .value 13 ∧ inputStep d s = { s with input := rest, io := s.io ++ [.took e] }) ∨
      (e = .eof ∧ s.cfg.inEofPolicy = .fault ∧
        inputStep d s = { s with
          input := rest, io := s.io ++ [.took e], runState := .faulted,
          fault := ⟨.inputExhausted, s.pc - 2, s.pc - 1, 20, 0, 0⟩ }) ∨
      (e = .eof ∧ s.cfg.inEofPolicy = .block ∧
        inputStep d s = { s with input := rest, io := s.io ++ [.took e], runState := .waitInput d true }) ∨
      (∃ v, e = .value v ∧ v ≠ 13 ∧
        inputStep d s = writeReg ⟨s.pc - 2, 20⟩ d v { s with input := rest, io := s.io ++ [.took e] }
          { s with input := rest, io := s.io ++ [.took e], runState := .running })) := by
  cases hi : s.input with
  | nil => exact .inl ⟨rfl, by simp [inputStep, hi]⟩
  | cons e rest =>
    refine .inr ⟨e, rest, rfl, ?_⟩
    rw [inputStep, hi]
    cases e with
    | eof =>
      cases hp : s.cfg.inEofPolicy with
      | fault => exact .inr (.inl ⟨rfl, rfl, by simp only [acceptInput, hp]; rfl⟩)
      | block => exact .inr (.inr (.inl ⟨rfl, rfl, by simp only [acceptInput, hp]⟩))
    | value v =>
      by_cases hv : v = 13
      · subst hv; exact .inl ⟨rfl, by simp only [acceptInput, if_true]⟩
      · exact .inr (.inr (.inr ⟨v, rfl, hv, by simp only [acceptInput, if_neg hv]; rfl⟩))

/-- The model's run is the host's run of the core. -/
theorem runSteps_eq_core_run (n : Nat) (s : State) : runSteps n s = core.run n s := by
  have h : ∀ n (s : core.State), core.run n s = runSteps n s := by
    intro n
    induction n with
    | zero => intro s; rfl
    | succ n ih =>
      intro s
      obtain ⟨t, ht⟩ := step_next s
      exact (run_succ_of_next core n (s := s) (t := t) ht).trans ((ih t).trans (runSteps_succ n ht).symm)
  exact (h n s).symm

end Sys2Proof.Machine
end

