-- ==== Sys2Proof/Tests/Slice0.lean ====
section
/-! SUPPORT. Tests. Expected results are those of spec/95_test_vectors.md (the vector's name stands beside each), and a witness for
the hypotheses of every statement that has some. -/

namespace Sys2Proof.Tests

open Sys2Proof.Machine

/-- The reset state with cells from address 0 up (95_test_vectors.md section 0). -/
def boot (cells : List Cell) : State := { State.reset with mem := Memory.place [] 0 cells }

/-- The same with register 0 holding v. -/
def bootR0 (v : Value) (cells : List Cell) : State := (boot cells).setReg 0 v

/-- A view of the state after n steps. -/
def after {α : Type} (n : Nat) (s : State) (view : State → α) : Option α :=
  match runSteps n s with
  | .next t => some (view t)
  | .fault _ | .refused _ => none

/-- `kind/ipc/addr/opcode/raw/reg` of 95_test_vectors.md section 0, with the run state and pc before it. -/
def faultView (t : State) : RunState × Cell × BitVec 4 × Cell × Cell × Cell × Cell × RegIdx :=
  (t.runState, t.pc, t.fault.kind.code, t.fault.ipc, t.fault.addr, t.fault.opcode, t.fault.raw, t.fault.reg)

/-! ## WellFormed: each check refuses an ill-formed term -/

theorem test_wf_literal_destination : (Instr.set (.lit 5) (.lit 3)).wf = false := by decide
theorem test_wf_invalid_destination : (Instr.pop (.invalid 32776)).wf = false := by decide
theorem test_wf_invalid_value : (Instr.out (.invalid 32800)).wf = false := by decide
theorem test_wf_invalid_second : (Instr.jt (.lit 0) (.invalid 32800)).wf = false := by decide
theorem test_wf_invalid_third : (Instr.add (.reg 0) (.reg 0) (.invalid 32800)).wf = false := by decide
theorem test_wf_accepts : (Instr.add (.reg 7) (.reg 0) (.lit 32767)).wf = true := by decide
theorem test_classed_refuses : (Operand.invalid 32775).classed = false := by decide

/-! ## Decoding: every constructor's word, from 30_encoding.md R71 and R80 and the cells of 95_test_vectors.md -/

theorem test_decode_halt : decode [0] = .ok (.halt, []) := by decide
theorem test_decode_set : decode [1, 32768, 4] = .ok (.set (.reg 0) (.lit 4), []) := by decide
theorem test_decode_push : decode [2, 32769] = .ok (.push (.reg 1), []) := by decide
theorem test_decode_pop : decode [3, 32768] = .ok (.pop (.reg 0), []) := by decide
theorem test_decode_eq : decode [4, 32770, 32768, 32769] = .ok (.eq (.reg 2) (.reg 0) (.reg 1), []) := by decide
theorem test_decode_gt : decode [5, 32768, 6, 5] = .ok (.gt (.reg 0) (.lit 6) (.lit 5), []) := by decide
theorem test_decode_jmp : decode [6, 100] = .ok (.jmp (.lit 100), []) := by decide
theorem test_decode_jt : decode [7, 32768, 20] = .ok (.jt (.reg 0) (.lit 20), []) := by decide
theorem test_decode_jf : decode [8, 0, 7] = .ok (.jf (.lit 0) (.lit 7), []) := by decide
theorem test_decode_add : decode [9, 32768, 32767, 2] = .ok (.add (.reg 0) (.lit 32767) (.lit 2), []) := by decide
theorem test_decode_mult : decode [10, 32768, 20000, 20000] = .ok (.mult (.reg 0) (.lit 20000) (.lit 20000), []) := by decide
theorem test_decode_mod : decode [11, 32769, 32768, 1000] = .ok (.mod (.reg 1) (.reg 0) (.lit 1000), []) := by decide
theorem test_decode_and : decode [12, 32771, 32770, 21845] = .ok (.and (.reg 3) (.reg 2) (.lit 21845), []) := by decide
theorem test_decode_or : decode [13, 32772, 32771, 10922] = .ok (.or (.reg 4) (.reg 3) (.lit 10922), []) := by decide
theorem test_decode_not : decode [14, 32770, 32769] = .ok (.not (.reg 2) (.reg 1), []) := by decide
theorem test_decode_rmem : decode [15, 32768, 100] = .ok (.rmem (.reg 0) (.lit 100), []) := by decide
theorem test_decode_wmem : decode [16, 100, 42] = .ok (.wmem (.lit 100) (.lit 42), []) := by decide
theorem test_decode_call : decode [17, 10, 19] = .ok (.call (.lit 10), [19]) := by decide
theorem test_decode_ret : decode [18] = .ok (.ret, []) := by decide
theorem test_decode_out : decode [19, 66] = .ok (.out (.lit 66), []) := by decide
theorem test_decode_in : decode [20, 32769] = .ok (.inp (.reg 1), []) := by decide
theorem test_decode_noop : decode [21] = .ok (.noop, []) := by decide
theorem test_decode_refuses_22 : decode [22] = .error (.invalidOpcode 22) := by decide
theorem test_decode_refuses_register_opcode : decode [32768] = .error (.invalidOpcode 32768) := by decide
theorem test_decode_truncated : decode [9, 32768, 1] = .error .truncated := by decide
theorem test_table_word_numbers_cells_upward :
    decodeTableWord 48 (16 + 65536 * 100 + 65536 * 65536 * 42) = some (.wmem (.lit 100) (.lit 42)) := by decide
theorem test_fetch_word_runs : after 1 (State.reset.withFetchWord 16 21) (fun t => (t.runState, t.pc)) = some (.running, 1) := by
  decide

/-! ## Control (95_test_vectors.md 2.2) -/

/-- V-CTL-1. -/
theorem test_halt : after 1 (boot [0]) (fun t => (t.runState, t.pc)) = some (.halted, 1) := by decide
/-- W7: the cell after halt is never fetched. -/
theorem test_halt_fetches_nothing :
    after 1 { boot [0, 22] with pc := 1, runState := .halted } (fun t => (t.runState, t.pc)) = some (.halted, 1) := by decide
/-- V-CTL-3. -/
theorem test_jmp_register : after 1 (bootR0 7 [6, 32768]) (fun t => (t.runState, t.pc)) = some (.running, 7) := by decide
/-- V-CTL-4. -/
theorem test_jmp_invalid : after 1 (boot [6, 32800]) faultView = some (.faulted, 2, 2, 0, 1, 6, 32800, 0) := by decide
/-- V-CTL-6. -/
theorem test_jt_taken : after 1 (boot [7, 32767, 5]) (·.pc) = some 5 := by decide
/-- V-CTL-12: not taken, addr decoded all the same. -/
theorem test_jt_decodes_addr : after 1 (boot [7, 0, 32800]) faultView = some (.faulted, 3, 2, 0, 2, 7, 32800, 0) := by decide
/-- V-CTL-10. -/
theorem test_jf_taken : after 1 (boot [8, 0, 5]) (·.pc) = some 5 := by decide
/-- V-CTL-11. -/
theorem test_jf_not_taken : after 1 (boot [8, 2, 5]) (·.pc) = some 3 := by decide
/-- V-CTL-14. -/
theorem test_call : after 1 (boot [17, 10]) (fun t => (t.pc, t.stack)) = some (10, [2]) := by decide
/-- V-CTL-21. -/
theorem test_call_full :
    after 1 { boot [17, 10] with cfg := { Params.default with stackCapacity := some 0 } } faultView
      = some (.faulted, 2, 8, 0, 1, 17, 0, 0) := by decide
/-- V-CTL-16. -/
theorem test_ret : after 1 { boot [18] with stack := [7] } (fun t => (t.pc, t.stack)) = some (7, []) := by decide
/-- V-CTL-17. -/
theorem test_ret_empty : after 1 (boot [18]) faultView = some (.faulted, 1, 3, 0, 0, 18, 0, 0) := by decide
/-- V-CTL-18. -/
theorem test_noop : after 1 (boot [21]) (fun t => (t.runState, t.pc)) = some (.running, 1) := by decide
/-- V-FLT-2, its second step: the fetch past the last cell. -/
theorem test_fetch_past_end :
    after 1 { boot [] with pc := 32768 } faultView = some (.faulted, 32768, 4, 32768, 32768, 0, 0, 0) := by decide

/-! ## Data (95_test_vectors.md 2.3) -/

/-- V-DATA-2. -/
theorem test_set_register : after 1 (bootR0 9 [1, 32769, 32768]) (fun t => (t.reg 1, t.pc)) = some (9, 3) := by decide
/-- V-DEC-7. -/
theorem test_set_literal_dst : after 1 (boot [1, 32767, 1]) faultView = some (.faulted, 2, 2, 0, 1, 1, 32767, 0) := by decide
/-- V-DATA-5, its second step with x[2] = 4. -/
theorem test_push_register :
    after 1 { (boot [2, 32770]).setReg 2 4 with stack := [7] } (fun t => (t.stack, t.pc)) = some ([7, 4], 2) := by decide
/-- V-DATA-21, at the second push. -/
theorem test_push_full :
    after 1 { boot [2, 2] with stack := [1], cfg := { Params.default with stackCapacity := some 1 } } faultView
      = some (.faulted, 2, 8, 0, 1, 2, 0, 0) := by decide
/-- V-DATA-7. -/
theorem test_pop : after 1 { boot [3, 32768] with stack := [1, 2, 3] } (fun t => (t.reg 0, t.stack, t.pc)) = some (3, [1, 2], 2) := by
  decide
/-- V-DATA-9: the entry stays. -/
theorem test_pop_high_entry :
    after 1 { boot [3, 32768] with stack := [32768] } (fun t => (faultView t, t.stack))
      = some ((.faulted, 2, 6, 0, 1, 3, 32768, 0), [32768]) := by decide
/-- V-DATA-14. -/
theorem test_rmem_high_cell :
    after 1 (boot [15, 32768, 4, 0, 40000]) faultView = some (.faulted, 3, 6, 0, 2, 15, 40000, 0) := by decide
/-- V-DATA-15. -/
theorem test_rmem_mask15 :
    after 1 { boot [15, 32768, 4, 0, 40000] with cfg := { Params.default with highWritePolicy := .mask15 } } (·.reg 0)
      = some 7232 := by decide
/-- V-DATA-19: the cell receives the register's content. -/
theorem test_wmem_register : after 1 (bootR0 5 [16, 100, 32768]) (fun t => (t.memRead 100, t.pc)) = some (5, 3) := by decide
/-- V-DEC-17, its first step: the cell that the next fetch reads. -/
theorem test_wmem_literal : after 1 (boot [16, 3, 0, 19, 66, 0]) (fun t => (t.memRead 3, t.pc)) = some (0, 3) := by decide

/-! ## ALU (95_test_vectors.md 2.4) -/

/-- V-ALU-1. -/
theorem test_eq : after 1 (boot [4, 32768, 4, 4]) (·.reg 0) = some 1 := by decide
/-- V-ALU-29: the destination is also a source. -/
theorem test_eq_reads_before_write : after 1 (boot [4, 32768, 32768, 0]) (·.reg 0) = some 1 := by decide
/-- V-ALU-4. -/
theorem test_gt_strict : after 1 (boot [5, 32768, 5, 5]) (·.reg 0) = some 0 := by decide
/-- V-ALU-7. -/
theorem test_gt_unsigned : after 1 (boot [5, 32768, 32767, 0]) (·.reg 0) = some 1 := by decide
/-- V-ALU-8. -/
theorem test_add_wraps : after 1 (boot [9, 32768, 32767, 2]) (fun t => (t.reg 0, t.pc)) = some (1, 4) := by decide
/-- V-ALU-28. -/
theorem test_add_doubles : after 1 (bootR0 20000 [9, 32768, 32768, 32768]) (·.reg 0) = some 7232 := by decide
/-- V-ALU-11. -/
theorem test_mult_wraps : after 1 (boot [10, 32768, 20000, 20000]) (·.reg 0) = some 1024 := by decide
/-- V-ALU-12. -/
theorem test_mult_largest : after 1 (boot [10, 32768, 32767, 32767]) (·.reg 0) = some 1 := by decide
/-- V-ALU-16. -/
theorem test_mod : after 1 (boot [11, 32768, 10, 7]) (·.reg 0) = some 3 := by decide
/-- V-ALU-19. -/
theorem test_mod_zero : after 1 (boot [11, 32768, 5, 0]) faultView = some (.faulted, 4, 5, 0, 3, 11, 0, 0) := by decide
/-- V-ALU-20. -/
theorem test_and : after 1 (boot [12, 32768, 21845, 13107]) (·.reg 0) = some 4369 := by decide
/-- V-ALU-22. -/
theorem test_or : after 1 (boot [13, 32768, 21845, 10922]) (·.reg 0) = some 32767 := by decide
/-- V-ALU-24. -/
theorem test_not_zero : after 1 (boot [14, 32768, 0]) (fun t => (t.reg 0, t.pc)) = some (32767, 3) := by decide
/-- V-ALU-26. -/
theorem test_not : after 1 (boot [14, 32768, 21845]) (·.reg 0) = some 10922 := by decide

/-! ## I/O (95_test_vectors.md 2.5) -/

/-- V-IO-3. -/
theorem test_out : after 1 ((boot [19, 32771]).setReg 3 32767) (fun t => (t.outTrace, t.pc)) = some ([32767], 2) := by decide
/-- V-IO-4. -/
theorem test_out_invalid : after 1 (boot [19, 32776]) (fun t => (faultView t, t.outTrace))
    = some ((.faulted, 2, 2, 0, 1, 19, 32776, 0), []) := by decide
/-- V-IO-9: no event is offered yet. -/
theorem test_in_waits : after 1 (boot [20, 32768]) (fun t => (t.runState, t.pc)) = some (.waitInput 0 false, 2) := by decide
/-- V-IO-12, its input step: the event stays taken. -/
theorem test_in_high_value :
    after 1 { boot [20, 32768] with pc := 2, runState := .waitInput 0 false, input := [.value 40000] }
      (fun t => (faultView t, t.input)) = some ((.faulted, 2, 6, 0, 1, 20, 40000, 0), []) := by decide

/-! ## Faults, reset, loading (95_test_vectors.md 2.1, 2.6, 2.7) -/

/-- V-DEC-11: no register indirection at the opcode. -/
theorem test_opcode_register_reference : after 1 (boot [32768]) faultView = some (.faulted, 1, 1, 0, 0, 32768, 32768, 0) := by
  decide
/-- V-DEC-14: the first illegal operand is the one reported. -/
theorem test_first_illegal_operand : after 1 (boot [9, 5, 32800, 40000]) faultView = some (.faulted, 2, 2, 0, 1, 9, 5, 0) := by
  decide
/-- V-FLT-1, its second step: the b cell would stand at 32768. -/
theorem test_operand_past_end :
    after 1 { State.reset with mem := Memory.place [] 32765 [9, 32768, 1], pc := 32765 } faultView
      = some (.faulted, 32768, 4, 32765, 32768, 9, 0, 0) := by decide
/-- V-LD-2 and R213's example. -/
theorem test_image_words : imageWords [0x00, 0x80, 0x07, 0x80] = some [32768, 32775] := by decide
/-- V-LD-3. -/
theorem test_image_odd : loadImage [0x13, 0x00, 0x42] [] = .error .imageMalformed := by decide
/-- V-RST-3. -/
theorem test_reset_while_waiting :
    (fun t => (t.runState, t.pc, t.input)) (assertReset { boot [] with pc := 2, runState := .waitInput 0 false, input := [.eof] })
      = (.running, 0, [.eof]) := by decide

/-! ## Witnesses: states and operands that meet the hypotheses of each statement

At the boundaries of their ranges: the last pc whose operands still fit, the last cells of memory, the values 32767 and 32768,
an empty and a full stack. Nothing here says what an instruction does. -/

/-- A Running core at `pc` with x[1] = 32767 and a one-entry stack. -/
def edge (pc : Cell) : State := { State.reset.setReg 1 32767 with pc := pc, stack := [32768] }

/-- The same with no room on the stack. -/
def full (pc : Cell) : State := { edge pc with cfg := { Params.default with stackCapacity := some 1 } }

/-- The same with HIGH_WRITE_POLICY = mask15. -/
def masking (pc : Cell) : State := { edge pc with cfg := { Params.default with highWritePolicy := .mask15 } }

/-- A core waiting for the input of `in r0`, with these events offered. -/
def waiting (events : List InEvent) : State :=
  { State.reset with pc := 2, runState := .waitInput 0 false, input := events }

/-- From a view that holds after one step: the step and its next state. -/
theorem step_of_after {s : State} {p : State → Bool} (h : after 1 s p = some true) : ∃ t, step s = .next t ∧ p t = true := by
  obtain ⟨t, ht⟩ := step_next s
  refine ⟨t, ht, ?_⟩
  simpa [after, runSteps, ht] using h

/-- A view of what an instruction answers. -/
def afterExec {α : Type} (i : Instr) (s : State) (view : State → α) : Option α :=
  match exec i s with
  | .next t => some (view t)
  | .fault _ | .refused _ => none

theorem exec_of_afterExec {i : Instr} {s : State} {p : State → Bool} (h : afterExec i s p = some true) :
    ∃ t, exec i s = .next t ∧ p t = true := by
  obtain ⟨t, ht⟩ := exec_next i s
  refine ⟨t, ht, ?_⟩
  simpa [afterExec, ht] using h

/-- Both cases of `OperandFault` are met at operand k: by `i`, whose operand k would stand at 32768, and by `j`, whose operand k
is illegal in the last cells but one. -/
abbrev OperandFaultsMet (i j : Instr) (k : Nat) : Prop :=
  (∃ t, (edge (BitVec.ofNat 16 (32767 - k))).pc.toNat ≤ 32767 ∧
    OperandFault i.opcode i.operands (edge (BitVec.ofNat 16 (32767 - k))) t) ∧
  (∃ t, (edge (BitVec.ofNat 16 (32766 - k))).pc.toNat ≤ 32767 ∧
    OperandFault j.opcode j.operands (edge (BitVec.ofNat 16 (32766 - k))) t)

theorem operandFaultsMet {i j : Instr} {k : Nat}
    (h : k ≤ 2 ∧ k < i.operands.length ∧ (i.operands.take k).all (fun ro => ro.2.legalIn ro.1) = true ∧
      (j.operands.take k).all (fun ro => ro.2.legalIn ro.1) = true ∧
      (j.operands[k]?.map fun ro => ro.2.legalIn ro.1) = some false) : OperandFaultsMet i j k := by
  obtain ⟨hk, hl, hi, hj, hill⟩ := h
  have before : ∀ ops : List (Role × Operand), (ops.take k).all (fun ro => ro.2.legalIn ro.1) = true →
      ∀ m ro, m < k → ops[m]? = some ro → ro.2.legalIn ro.1 = true := by
    intro ops ha m ro hm ho
    refine List.all_eq_true.mp ha ro (List.mem_of_getElem? (i := m) ?_)
    rw [List.getElem?_take_of_lt hm, ho]
  have hpc : ∀ n, n ≤ 32767 → (edge (BitVec.ofNat 16 n)).pc.toNat = n := by
    intro n hn
    simp [edge, BitVec.toNat_ofNat]; omega
  cases ho : j.operands[k]? with
  | none => simp [ho] at hill
  | some ro =>
    simp [ho] at hill
    refine ⟨⟨_, by rw [hpc _ (by omega)]; omega, k, _, _, List.getElem?_eq_getElem hl, before _ hi,
      .inl ⟨by rw [hpc _ (by omega)]; omega, rfl⟩⟩, ⟨_, by rw [hpc _ (by omega)]; omega, k, _, _, ho, before _ hj,
      .inr ⟨by rw [hpc _ (by omega)]; omega, hill, rfl⟩⟩⟩

/-- The hypotheses of `BinaryAlu`. -/
abbrev BinaryAluMet (mk : Operand → Operand → Operand → Instr) : Prop :=
  (valueOf (edge 32764) (.reg 1) = some 32767 ∧ valueOf (edge 32764) (.lit 0) = some 0 ∧ (edge 32764).fits 3) ∧
  OperandFaultsMet (mk (.reg 7) (.reg 1) (.lit 0)) (mk (.reg 7) (.reg 1) (.invalid 32776)) 2 ∧
  OperandFaultsMet (mk (.reg 7) (.reg 1) (.lit 0)) (mk (.lit 32767) (.reg 1) (.lit 0)) 0

theorem witness_EqWritesOneWhenEqual : BinaryAluMet .eq :=
  ⟨by decide, operandFaultsMet (by decide), operandFaultsMet (by decide)⟩
theorem witness_GtWritesOneWhenGreater : BinaryAluMet .gt :=
  ⟨by decide, operandFaultsMet (by decide), operandFaultsMet (by decide)⟩
theorem witness_AddWritesSumModulo32768 : BinaryAluMet .add :=
  ⟨by decide, operandFaultsMet (by decide), operandFaultsMet (by decide)⟩
theorem witness_MultWritesProductModulo32768 : BinaryAluMet .mult :=
  ⟨by decide, operandFaultsMet (by decide), operandFaultsMet (by decide)⟩
theorem witness_AndWritesBitwiseAnd : BinaryAluMet .and :=
  ⟨by decide, operandFaultsMet (by decide), operandFaultsMet (by decide)⟩
theorem witness_OrWritesBitwiseOr : BinaryAluMet .or :=
  ⟨by decide, operandFaultsMet (by decide), operandFaultsMet (by decide)⟩
/-- With a divisor that is not 0 (x[1] = 32767) and with one that is. -/
theorem witness_ModWritesRemainderOrFaults :
    BinaryAluMet .mod ∧ (32767 : Value) ≠ 0 ∧ valueOf (edge 32764) (.reg 2) = some 0 :=
  ⟨⟨by decide, operandFaultsMet (by decide), operandFaultsMet (by decide)⟩, by decide, by decide⟩
theorem witness_NotWrites15BitComplement :
    (valueOf (edge 32765) (.reg 1) = some 32767 ∧ (edge 32765).fits 2) ∧
    OperandFaultsMet (.not (.reg 7) (.lit 0)) (.not (.reg 7) (.invalid 65535)) 1 :=
  ⟨by decide, operandFaultsMet (by decide)⟩

/-! ### Reset, boot and the invariant -/

/-- A state with memory in it meets the invariant; its step is a next state, and so is one that faults. -/
theorem witness_StepKeepsTheInvariant :
    ((boot [21]).Inv ∧ ∃ t, step (boot [21]) = .next t ∧ decide (t.runState = .running) = true) ∧
    ((boot [22]).Inv ∧ ∃ t, step (boot [22]) = .next t ∧ decide (t.runState = .faulted) = true) := by
  have inv : ∀ c : Cell, (boot [c]).Inv := fun c =>
    { mem := by simp [boot, Memory.place, Memory.write, Memory.wf]
      pc := by simp [boot, State.reset]
      stack := by simp [boot, State.reset]
      capacity := by intro n h; cases h
      noFault := fun _ => rfl
      faultKind := by intro h; cases h
      faultFields :=
        { reg := fun _ => rfl
          raw := fun _ _ _ => rfl
          opcode := by intro h; cases h
          value := by intro h; cases h
          ipc := Nat.zero_le _
          addr := Nat.zero_le _
          pastEnd := by intro h; cases h }
      waitPc := by intro d e h; cases h
      waitEof := by intro d h; cases h }
  exact ⟨⟨inv 21, step_of_after (by decide)⟩, inv 22, step_of_after (by decide)⟩

theorem witness_LaunchEstablishesTheInvariant :
    State.reset.mem.wf ∧ launch [0x13, 0x00, 0x42, 0x80] State.reset = .ok (boot [19, 32834]) := by decide

/-- The empty image, one word, the longest image, one word too many, one byte; and a byte pair. -/
theorem witness_LoaderPlacesLittleEndianWords :
    ([] : List Byte).length = 2 * 0 ∧ ([0x13, 0x80] : List Byte).length = 2 * 1 ∧ (List.replicate 65536 (0 : Byte)).length = 2 * 32768 ∧ 32768 ≤ 32768 ∧
    (List.replicate 65538 (0 : Byte)).length = 2 * 32769 ∧ 32768 < 32769 ∧ [(0x13 : Byte)].length = 2 * 0 + 1 ∧
    ([0x13, 0x80] : List Byte)[2 * 0]? = some 0x13 ∧ ([0x13, 0x80] : List Byte)[2 * 0 + 1]? = some 0x80 ∧
    1 ≤ (32767 : Value).toNat :=
  ⟨rfl, rfl, List.length_replicate, by decide, List.length_replicate, by decide, rfl, rfl, rfl, by decide⟩

theorem witness_StatusPortShowsStoppedStateOnly :
    State.ended { State.reset with runState := .halted } = true ∧ State.ended { State.reset with runState := .faulted } = true ∧
    State.ended (waiting []) = false ∧ State.ended State.reset = false ∧ State.reset.runState = .running ∧
    (waiting []).runState = .waitInput 0 false ∧
    State.runState { waiting [] with runState := .waitInput 7 true } = .waitInput 7 true := by decide

/-! ### Encoding -/

theorem witness_OperandCellsFallInThreeClasses :
    (32767 : Cell).toNat ≤ 32767 ∧ (32768 ≤ (32768 : Cell).toNat ∧ (32768 : Cell).toNat ≤ 32775) ∧
    (32768 ≤ (32775 : Cell).toNat ∧ (32775 : Cell).toNat ≤ 32775) ∧ 32776 ≤ (32776 : Cell).toNat ∧
    32776 ≤ (65535 : Cell).toNat := by decide

theorem witness_DecodeOfEncodeIsTheInstruction :
    (Instr.add (.reg 7) (.lit 0) (.lit 32767)).wf = true ∧ (Instr.inp (.reg 0)).wf = true ∧ Instr.halt.wf = true := by decide

theorem witness_EncodeOfDecodeIsTheCells :
    decode [7, 32775, 32776, 5] = .ok (.jt (.reg 7) (.invalid 32776), [5]) ∧
    (Role.val, Operand.invalid 32776) ∈ (Instr.jt (.reg 7) (.invalid 32776)).operands := by decide

/-- The first refused value and the last accepted one. -/
theorem witness_DecoderRefusesExactlyUnknownOpcodes :
    decode [22, 0] = .error (.invalidOpcode 22) ∧ 21 < (22 : Cell).toNat ∧ ¬ 21 < (21 : Cell).toNat := by decide

/-! ### The instruction cycle -/

theorem witness_StepRunsTheDecodedInstruction :
    (boot [9, 32768, 32767, 2]).runState = .running ∧ (boot [9, 32768, 32767, 2]).pc.toNat ≤ 32767 ∧
    decode (boot [9, 32768, 32767, 2]).window = .ok (.add (.reg 0) (.lit 32767) (.lit 2), []) := by decide

/-- `out 66` in the last two cells of memory. -/
theorem witness_StepRunsTheInstructionInMemory :
    ∃ s : State, s.runState = .running ∧ (∀ ro ∈ (Instr.out (.lit 66)).operands, ro.2.classed = true) ∧
      s.pc.toNat + (encode (.out (.lit 66))).length ≤ 32768 ∧
      ∀ k c, (encode (.out (.lit 66)))[k]? = some c → s.memRead (BitVec.ofNat 15 (s.pc.toNat + k)) = c := by
  refine ⟨{ edge 32766 with mem := [(32766, 19), (32767, 66)] }, by decide, by decide, by decide, ?_⟩
  intro k c h
  match k, h with
  | 0, h => cases h; decide
  | 1, h => cases h; decide
  | k + 2, h => simp [encode, Instr.operands] at h

theorem witness_OpcodeFetchPastTheEndFaults :
    (edge 32768).runState = .running ∧ 32768 ≤ (edge 32768).pc.toNat ∧ 32768 ≤ (edge 65535).pc.toNat := by decide

/-- The first unknown opcode and the last known one, in the last cell of memory. -/
theorem witness_UnknownOpcodeCellsFault :
    (edge 32767).runState = .running ∧ (edge 32767).pc.toNat ≤ 32767 ∧
    22 ≤ (({ edge 32767 with mem := [(32767, 22)] } : State).memRead (BitVec.ofNat 15 32767)).toNat ∧
    (({ edge 32767 with mem := [(32767, 21)] } : State).memRead (BitVec.ofNat 15 32767)).toNat ≤ 21 := by decide

theorem witness_OperandsDecodeBeforeExecution : (edge 0).pc.toNat ≤ 32767 ∧ (edge 32767).pc.toNat ≤ 32767 := by decide

/-! ### Control -/

theorem witness_JmpSetsPc :
    (valueOf (edge 32766) (.reg 1) = some 32767 ∧ (edge 32766).fits 1) ∧
    OperandFaultsMet (.jmp (.lit 0)) (.jmp (.invalid 32776)) 0 :=
  ⟨by decide, operandFaultsMet (by decide)⟩

/-- The hypotheses of `ConditionalJump`: a condition of 32767 and one of 0. -/
abbrev ConditionalJumpMet (mk : Operand → Operand → Instr) : Prop :=
  (valueOf (edge 32765) (.reg 1) = some 32767 ∧ valueOf (edge 32765) (.lit 0) = some 0 ∧ (edge 32765).fits 2 ∧
    (32767 : Value) ≠ 0 ∧ ¬ (0 : Value) ≠ 0) ∧
  OperandFaultsMet (mk (.lit 0) (.lit 0)) (mk (.lit 0) (.invalid 32800)) 1

theorem witness_JtJumpsOnNonZero : ConditionalJumpMet .jt := ⟨by decide, operandFaultsMet (by decide)⟩
theorem witness_JfJumpsOnZero : ConditionalJumpMet .jf := ⟨by decide, operandFaultsMet (by decide)⟩

/-- With room on the stack and with none. -/
theorem witness_CallPushesReturnAddress :
    (valueOf (edge 32766) (.lit 0) = some 0 ∧ (edge 32766).fits 1 ∧
      (edge 32766).cfg.stackCapacity ≠ some (edge 32766).stack.length) ∧
    (valueOf (full 32766) (.lit 0) = some 0 ∧ (full 32766).fits 1 ∧
      (full 32766).cfg.stackCapacity = some (full 32766).stack.length) ∧
    OperandFaultsMet (.call (.lit 0)) (.call (.invalid 32776)) 0 :=
  ⟨by decide, by decide, operandFaultsMet (by decide)⟩

theorem witness_RetPopsPc : (edge 0).stack = [] ++ [32768] ∧ State.reset.stack = [] := by decide

/-- A call in the last two cells, which pushes 32768, and a later state with its stack. -/
theorem witness_RetResumesAfterTheCall :
    (edge 32766).pc.toNat ≤ 32767 ∧ (edge 32766).runState = .running ∧
    ∃ t, exec (.call (.lit 5)) (edge 32766) = .next t ∧
      decide (t.runState = .running ∧ ({ edge 7 with stack := [32768, 32768] } : State).stack = t.stack) = true :=
  ⟨by decide, by decide, exec_of_afterExec (by decide)⟩

/-! ### Data movement -/

theorem witness_SetCopiesValue :
    (valueOf (edge 32765) (.reg 1) = some 32767 ∧ (edge 32765).fits 2) ∧
    OperandFaultsMet (.set (.reg 7) (.lit 0)) (.set (.reg 7) (.invalid 32776)) 1 ∧
    OperandFaultsMet (.set (.reg 7) (.lit 0)) (.set (.lit 5) (.lit 0)) 0 :=
  ⟨by decide, operandFaultsMet (by decide), operandFaultsMet (by decide)⟩

theorem witness_PushAppendsValue :
    (valueOf (edge 32766) (.reg 1) = some 32767 ∧ (edge 32766).fits 1 ∧
      (edge 32766).cfg.stackCapacity ≠ some (edge 32766).stack.length) ∧
    (valueOf (full 32766) (.reg 1) = some 32767 ∧ (full 32766).fits 1 ∧
      (full 32766).cfg.stackCapacity = some (full 32766).stack.length) ∧
    OperandFaultsMet (.push (.lit 0)) (.push (.invalid 32776)) 0 :=
  ⟨by decide, by decide, operandFaultsMet (by decide)⟩

/-- The entries 32767, 32768 under each policy, and the empty stack. -/
theorem witness_PopMovesTopEntry :
    ((edge 32766).fits 1 ∧ ({ edge 32766 with stack := [32767] } : State).stack = [] ++ [32767] ∧
      (32767 : Cell).toNat ≤ 32767) ∧
    ((masking 32766).stack = [] ++ [32768] ∧ (masking 32766).cfg.highWritePolicy = .mask15) ∧
    ((edge 32766).stack = [] ++ [32768] ∧ 32767 < (32768 : Cell).toNat ∧ (edge 32766).cfg.highWritePolicy = .fault) ∧
    (({ edge 32766 with stack := [] } : State).fits 1 ∧ ({ edge 32766 with stack := [] } : State).stack = []) ∧
    OperandFaultsMet (.pop (.reg 0)) (.pop (.lit 32767)) 0 :=
  ⟨by decide, by decide, by decide, by decide, operandFaultsMet (by decide)⟩

/-- A cell of 32767, and a cell of 32768 under each policy. -/
theorem witness_RmemReadsTheCell :
    (valueOf (edge 32765) (.reg 1) = some 32767 ∧ (edge 32765).fits 2) ∧
    (({ edge 32765 with mem := [(32767, 32767)] } : State).memRead 32767).toNat ≤ 32767 ∧
    (masking 32765).cfg.highWritePolicy = .mask15 ∧
    (32767 < (({ edge 32765 with mem := [(32767, 32768)] } : State).memRead 32767).toNat ∧
      (edge 32765).cfg.highWritePolicy = .fault) ∧
    OperandFaultsMet (.rmem (.reg 0) (.lit 0)) (.rmem (.reg 0) (.invalid 32776)) 1 :=
  ⟨by decide, by decide, by decide, by decide, operandFaultsMet (by decide)⟩

theorem witness_WmemWritesTheCell :
    (valueOf (edge 32765) (.reg 1) = some 32767 ∧ valueOf (edge 32765) (.lit 0) = some 0 ∧ (edge 32765).fits 2) ∧
    OperandFaultsMet (.wmem (.lit 0) (.lit 0)) (.wmem (.lit 0) (.invalid 32776)) 1 :=
  ⟨by decide, operandFaultsMet (by decide)⟩

/-- The store goes to the last cell of memory, as the next opcode, with each of the four values; and, at pc = 32763, to the
last cell as the operand of the next instruction, `out 7`. -/
theorem witness_StoreIsSeenByTheNextFetch :
    ((edge 32764).runState = .running ∧ (edge 32764).fits 2 ∧ valueOf (edge 32764) (.reg 1) = some 32767 ∧
      (32767 : Value).toNat = (edge 32764).pc.toNat + 3 ∧
      (∃ t, exec (.wmem (.reg 1) (.lit 0)) (edge 32764) = .next t) ∧ valueOf (edge 32764) (.lit 0) = some 0 ∧
      valueOf (edge 32764) (.lit 21) = some 21 ∧ (21 : Value).toNat ≤ 21 ∧ valueOf (edge 32764) (.lit 22) = some 22 ∧
      22 ≤ (22 : Value).toNat) ∧
    ∃ s t : State, s.runState = .running ∧ s.fits 2 ∧ valueOf s (.reg 1) = some 32767 ∧ valueOf s (.lit 7) = some 7 ∧
      exec (.wmem (.reg 1) (.lit 7)) s = .next t ∧ (∀ ro ∈ (Instr.out (.lit 7)).operands, ro.2.classed = true) ∧
      s.pc.toNat + 3 + (encode (.out (.lit 7))).length ≤ 32768 ∧
      ∀ k c, (encode (.out (.lit 7)))[k]? = some c → c = if (32767 : Value).toNat = s.pc.toNat + 3 + k then toCell (7 : Value)
        else s.memRead (BitVec.ofNat 15 (s.pc.toNat + 3 + k)) := by
  refine ⟨⟨by decide, by decide, by decide, by decide, exec_next _ _, by decide, by decide, by decide, by decide, by decide⟩,
    { edge 32763 with mem := [(32766, 19)] }, ?_⟩
  obtain ⟨t, ht⟩ := exec_next (.wmem (.reg 1) (.lit 7)) { edge 32763 with mem := [(32766, 19)] }
  refine ⟨t, by decide, by decide, by decide, by decide, ht, by decide, by decide, ?_⟩
  intro k c h
  match k, h with
  | 0, h => cases h; decide
  | 1, h => cases h; decide
  | k + 2, h => simp [encode, Instr.operands] at h

/-! ### Shared operations -/

theorem witness_WriteRegFollowsHighWritePolicy :
    (32767 : Cell).toNat ≤ 32767 ∧ (32767 < (32768 : Cell).toNat ∧ (masking 0).cfg.highWritePolicy = .mask15) ∧
    (32767 < (65535 : Cell).toNat ∧ (edge 0).cfg.highWritePolicy = .fault) := by decide

theorem witness_StackIsLastInFirstOut :
    (full 0).cfg.stackCapacity = some (full 0).stack.length ∧ (edge 0).cfg.stackCapacity ≠ some (edge 0).stack.length ∧
    State.reset.stack = [] := by decide

/-! ### I/O -/

theorem witness_OutAppendsOneValue :
    (valueOf (edge 32766) (.reg 1) = some 32767 ∧ (edge 32766).fits 1) ∧
    OperandFaultsMet (.out (.lit 0)) (.out (.invalid 32776)) 0 :=
  ⟨by decide, operandFaultsMet (by decide)⟩

theorem witness_InWaitsForInput :
    (edge 32766).fits 1 ∧ OperandFaultsMet (.inp (.reg 7)) (.inp (.lit 0)) 0 :=
  ⟨by decide, operandFaultsMet (by decide)⟩

/-- 32767, and 32768 under each policy. -/
theorem witness_AcceptedInputIsWritten :
    ((waiting [.value 32767, .eof]).runState = .waitInput 0 false ∧
      (waiting [.value 32767, .eof]).input = .value 32767 :: [.eof] ∧ (32767 : Cell) ≠ 13 ∧ (32767 : Cell).toNat ≤ 32767) ∧
    (({ waiting [.value 32768] with cfg := (masking 0).cfg } : State).cfg.highWritePolicy = .mask15 ∧ (32768 : Cell) ≠ 13) ∧
    ((waiting [.value 32768]).cfg.highWritePolicy = .fault ∧ 32767 < (32768 : Cell).toNat) := by decide

/-- No carriage return, and two. -/
theorem witness_InSkipsCarriageReturns :
    (waiting [.value 65]).runState = .waitInput 0 false ∧ (65 : Cell) ≠ 13 ∧ (65 : Cell).toNat ≤ 32767 ∧
    (waiting [.value 65]).input = List.replicate 0 (.value 13) ++ .value 65 :: [] ∧
    (waiting [.value 13, .value 13, .value 65, .eof]).input = List.replicate 2 (.value 13) ++ .value 65 :: [.eof] := by decide

theorem witness_EndOfInputFollowsEofPolicy :
    (waiting [.eof, .value 65]).runState = .waitInput 0 false ∧ (waiting [.eof, .value 65]).input = .eof :: [.value 65] ∧
    (waiting [.eof, .value 65]).cfg.inEofPolicy = .fault ∧
    ({ waiting [.eof, .value 65] with cfg := { Params.default with inEofPolicy := .block } } : State).cfg.inEofPolicy = .block := by
  decide

/-! ### Whole-machine rules -/

/-- Halted, Faulted, waiting with nothing offered, hung after EOF; and a waiting core with an event. -/
theorem witness_OnlyEnabledStepsChangeState :
    State.hasStep { State.reset with runState := .halted } = false ∧
    State.hasStep { State.reset with runState := .faulted } = false ∧ (waiting []).hasStep = false ∧
    State.hasStep { waiting [.value 65] with runState := .waitInput 0 true } = false ∧
    ((waiting [.value 13]).hasStep = true ∧ (waiting [.value 13]).runState ≠ .running) ∧
    ((waiting [.value 13, .eof]).runState = .waitInput 0 false ∧
      (waiting [.value 13, .eof]).input = .value 13 :: [.eof]) := by decide

theorem witness_RunStateMovesAsListed :
    ((boot [0]).runState = .running ∧ ∃ t, step (boot [0]) = .next t ∧ decide (t.runState = .halted) = true) ∧
    (∃ t, step (boot [20, 32775]) = .next t ∧ decide (t.runState = .waitInput 7 false) = true) ∧
    ((waiting [.value 65]).runState = .waitInput 0 false ∧
      ∃ t, step (waiting [.value 65]) = .next t ∧ decide (t.runState = .running) = true) ∧
    (∃ t, step { State.reset with runState := .halted } = .next t ∧ decide (t.runState = .halted) = true) :=
  ⟨⟨by decide, step_of_after (by decide)⟩, step_of_after (by decide), ⟨by decide, step_of_after (by decide)⟩,
    step_of_after (by decide)⟩

theorem witness_FaultsArePrecise :
    ((boot [18]).runState = .running ∧ ∃ t, step (boot [18]) = .next t ∧ decide (t.runState = .faulted) = true) ∧
    ((waiting [.eof]).runState ≠ .running ∧ (waiting [.eof]).runState ≠ .faulted ∧
      ∃ t, step (waiting [.eof]) = .next t ∧ decide (t.runState = .faulted) = true) :=
  ⟨⟨by decide, step_of_after (by decide)⟩, by decide, by decide, step_of_after (by decide)⟩

theorem witness_OnlyWmemChangesMemory :
    (∃ t, exec (.wmem (.reg 1) (.lit 7)) { edge 0 with mem := [(32767, 5)] } = .next t ∧
      decide (t.memRead 32767 ≠ ({ edge 0 with mem := [(32767, 5)] } : State).memRead 32767) = true) ∧
    ((waiting [.value 65]).runState ≠ .running ∧ ∃ t, step (waiting [.value 65]) = .next t) :=
  ⟨exec_of_afterExec (by decide), by decide, step_next _⟩

theorem witness_ChangedCellsHoldValues :
    ∃ t, step (boot [16, 0, 32767]) = .next t ∧ decide (t.memRead 0 ≠ (boot [16, 0, 32767]).memRead 0) = true :=
  step_of_after (by decide)

theorem witness_OnlyTheDestinationRegisterChanges :
    ∃ t, exec (.set (.reg 7) (.lit 5)) (edge 0) = .next t ∧ decide (t.reg 7 ≠ (edge 0).reg 7) = true :=
  exec_of_afterExec (by decide)

theorem witness_OnlyStackInstructionsTouchTheStack :
    (∃ t, exec (.call (.lit 5)) (edge 0) = .next t ∧ decide (t.stack ≠ (edge 0).stack) = true) ∧
    (∃ t, exec .ret (edge 0) = .next t ∧ decide (t.stack ≠ (edge 0).stack) = true) :=
  ⟨exec_of_afterExec (by decide), exec_of_afterExec (by decide)⟩

theorem witness_IoTraceOnlyGrows :
    (∃ t, step (boot [19, 66]) = .next t ∧ decide (t.io ≠ (boot [19, 66]).io) = true) ∧
    (∃ t, step (waiting [.value 13]) = .next t ∧ decide (t.io ≠ (waiting [.value 13]).io) = true) ∧
    (∃ t, step (boot [21]) = .next t ∧ decide (t.io = (boot [21]).io) = true) :=
  ⟨step_of_after (by decide), step_of_after (by decide), step_of_after (by decide)⟩

theorem witness_StepKeepsTheParameters : ∃ t, step (full 0) = .next t := step_next _

/-! ### Operand values -/

/-- The classes at their bounds, and pc at the last cell and past it. -/
theorem witness_OperandCellsResolveByClass :
    (32767 : Cell).toNat ≤ 32767 ∧ (32768 ≤ (32768 : Cell).toNat ∧ (32768 : Cell).toNat ≤ 32775) ∧
    (32768 ≤ (32775 : Cell).toNat ∧ (32775 : Cell).toNat ≤ 32775) ∧ 32776 ≤ (32776 : Cell).toNat ∧
    ((edge 32767).pc.toNat ≤ 32767 ∧ valueOf (edge 32767) (classify 32769) = some 32767 ∧
      indexOf (edge 32767) (classify 32775) = some 7 ∧ valueOf (edge 32767) (classify 32776) = none ∧
      indexOf (edge 32767) (classify 32767) = none) ∧
    32768 ≤ (edge 32768).pc.toNat := by decide

end Sys2Proof.Tests
end

section
/-! PROOFS. The state's own statements: the reset values and the stack discipline (10_state.md). -/

namespace Sys2Proof.Machine

/-- 10_state.md R26: the reset values of the registers. -/
@[simp] theorem State.reset_reg (i : RegIdx) : State.reset.reg i = 0 := by
  simp [State.reset, State.reg]

/-- Push on a full stack, as 10_state.md R33 has it. -/
theorem pushStack_full {cur : Current} {v : Cell} {s : State} (h : s.cfg.stackCapacity = some s.stack.length) :
    pushStack cur v s = .raised (raise .stackOverflow cur s.lastCell 0 0 s) := by
  obtain ⟨-, hpush⟩ | ⟨hroom, -⟩ := pushStack_cases cur v s
  · exact hpush
  · exact absurd h hroom

/-- Push on a stack with room, as 10_state.md R33 has it. -/
theorem pushStack_room {cur : Current} {v : Cell} {s : State} (h : s.cfg.stackCapacity ≠ some s.stack.length) :
    pushStack cur v s = .ok () { s with stack := s.stack ++ [v] } := by
  obtain ⟨hfull, -⟩ | ⟨-, hpush⟩ := pushStack_cases cur v s
  · exact absurd hfull h
  · exact hpush

/-- Pop undoes the append at the top that a Push makes (10_state.md R34). -/
theorem popStack_push (cur : Current) (v : Cell) (s : State) :
    popStack cur { s with stack := s.stack ++ [v] } = .ok v s :=
  popStack_append rfl

/-- Settles O1: the registers by `State.reset_reg`; pc, stack and run state are fields of the reset record. -/
theorem resetStateHoldsTheResetValues : Obligations.ResetStateHoldsTheResetValues :=
  ⟨State.reset_reg, rfl, rfl, rfl⟩

/-- Settles O41: Push with and without room, Pop after a Push and Pop on the empty stack, each by its own rule. -/
theorem stackIsLastInFirstOut : Obligations.StackIsLastInFirstOut := by
  intro cur v s
  refine ⟨fun hfull => ?full, fun hroom => ?room, fun hempty => ?empty⟩
  case full => exact ⟨_, rfl, pushStack_full hfull⟩
  case room => exact ⟨pushStack_room hroom, popStack_push cur v s⟩
  case empty => exact ⟨_, rfl, popStack_nil hempty⟩

end Sys2Proof.Machine
end

section
/-! PROOFS. The encoding's own statement: the classes of an operand cell (30_encoding.md R71). -/

namespace Sys2Proof

/-- Settles O8: `classify_lit`, `classify_reg` and `classify_invalid` give the class; no bit of the number is lost, since a literal
is below 2^15 and a register offset below 8. -/
theorem operandCellsFallInThreeClasses : Obligations.OperandCellsFallInThreeClasses := by
  intro raw
  refine ⟨fun hlit => ?lit, fun hlow hhigh => ?reg, fun hinvalid => ?invalid⟩
  case lit => exact ⟨_, classify_lit hlit, Nat.mod_eq_of_lt (by omega)⟩
  case reg => exact ⟨_, classify_reg hlow hhigh, Nat.mod_eq_of_lt (by omega)⟩
  case invalid => exact classify_invalid hinvalid

end Sys2Proof
end

section
/-! PROOFS. The control family's own statements: jmp and noop (41_control.md R101, R106). -/

namespace Sys2Proof.Machine

/-- Where its operand does not decode, an instruction of format V stops with that operand's fault, whatever it would have done
with the value. -/
theorem formatV_fault {op : Cell} {a : Operand} {s t : State} (hpc : s.pc.toNat ≤ 32767)
    (ht : OperandFault op [(.val, a)] s t) (k : Current → Value → State → State) : formatV op a s k = t := by
  obtain ⟨u, hu, hfits, -⟩ | ⟨t', ht', hstop⟩ := formatV_cases (op := op) (a := a) hpc
  · exact (ht.absent ⟨by simp [legal_of_valueOf hu], hfits⟩).elim
  · rw [hstop, ht'.unique ht]

/-- The meaning of jmp, from every state (41_control.md R101). -/
theorem exec_jmp (addr : Operand) (s : State) :
    exec (.jmp addr) s = .next (formatV 6 addr s fun _ t s => s.jump (toCell t)) := rfl

/-- Settles O19: a decoded operand reaches the jump by `formatV_ok`, which overwrites the pc advance; an operand that does not
decode stops jmp by `formatV_fault`. -/
theorem jmpSetsPc : Obligations.JmpSetsPc := by
  intro addr
  refine ⟨rfl, fun s t ht hfits => ?jumps, fun s t hpc ht => ?faults⟩
  case jumps => rw [exec_jmp, formatV_ok ht hfits]; rfl
  case faults => rw [exec_jmp, formatV_fault (op := 6) hpc ht]

/-- Settles O24: noop is only its opcode cell, and consuming that cell is the pc advance. -/
theorem noopOnlyAdvancesPc : Obligations.NoopOnlyAdvancesPc :=
  ⟨rfl, fun _ => rfl⟩

end Sys2Proof.Machine
end

section
/-! PROOFS. The data family's own statement: set (42_data.md R120). -/

namespace Sys2Proof.Machine

/-- Where one of its operands does not decode, an instruction of format RV stops with that operand's fault, whatever it would have
done with the register and the value. -/
theorem formatRV_fault {op : Cell} {d a : Operand} {s t : State} (hpc : s.pc.toNat ≤ 32767)
    (ht : OperandFault op [(.dst, d), (.val, a)] s t) (k : Current → RegIdx → Value → State → State) :
    formatRV op d a s k = t := by
  obtain ⟨i, u, rfl, hu, hfits, -⟩ | ⟨t', ht', hstop⟩ := formatRV_cases (op := op) (d := d) (a := a) hpc
  · have hreg : (Operand.reg i).legalIn .dst = true := rfl
    exact (ht.absent ⟨by simp [hreg, legal_of_valueOf hu], hfits⟩).elim
  · rw [hstop, ht'.unique ht]

/-- The meaning of set, from every state (42_data.md R120). A value is in range, so WriteReg writes it as it is, whatever
HIGH_WRITE_POLICY says. -/
theorem exec_set (dst src : Operand) (s : State) :
    exec (.set dst src) s = .next (formatRV 1 dst src s fun _ d v s => s.setReg d v) := by
  simp only [exec, execSet, writeReg_toCell]

/-- Settles O26: where both operands decode, `formatRV_ok` hands register and value to the write with pc past the three cells;
an operand that does not decode stops set by `formatRV_fault`. -/
theorem setCopiesValue : Obligations.SetCopiesValue := by
  intro dst src
  refine ⟨rfl, fun s d v hdst hsrc hfits => ?copies, fun s t hpc ht => ?faults⟩
  case copies => subst hdst; rw [exec_set, formatRV_ok hsrc hfits]; rfl
  case faults => rw [exec_set, formatRV_fault (op := 1) hpc ht]

end Sys2Proof.Machine
end

section
/-! PROOFS. The ALU family's own statements: the two-source instructions but mod, and not (43_alu.md R140 to R143, R145 to R147). -/

namespace Sys2Proof.Machine

open Sys2Proof.Shape

/-- Where one of its operands does not decode, an instruction of format RVV stops with that operand's fault, whatever it would have
done with the register and the values. -/
theorem formatRVV_fault {op : Cell} {d a b : Operand} {s t : State} (hpc : s.pc.toNat ≤ 32767)
    (ht : OperandFault op [(.dst, d), (.val, a), (.val, b)] s t) (k : Current → RegIdx → Value → Value → State → State) :
    formatRVV op d a b s k = t := by
  obtain ⟨i, u, v, rfl, hu, hv, hfits, -⟩ | ⟨t', ht', hstop⟩ := formatRVV_cases (op := op) (d := d) (a := a) (b := b) hpc
  · have hreg : (Operand.reg i).legalIn .dst = true := rfl
    exact (ht.absent ⟨by simp [hreg, legal_of_valueOf hu, legal_of_valueOf hv], hfits⟩).elim
  · rw [hstop, ht'.unique ht]

/-- A cell whose number is in range is the cell of the value with that number. -/
theorem eq_toCell_ofNat {c : Cell} {n : Nat} (hc : c.toNat = n) (hn : n < 32768) : c = toCell (BitVec.ofNat 15 n) := by
  apply BitVec.eq_of_toNat_eq
  rw [hc, toNat_toCell, BitVec.toNat_ofNat, Nat.mod_eq_of_lt hn]

theorem aluAdd_eq (u v : Value) : aluAdd u v = toCell (BitVec.ofNat 15 ((u.toNat + v.toNat) % 32768)) :=
  eq_toCell_ofNat (toNat_aluAdd u v) (Nat.mod_lt _ (by decide))

theorem aluMult_eq (u v : Value) : aluMult u v = toCell (BitVec.ofNat 15 (u.toNat * v.toNat % 32768)) :=
  eq_toCell_ofNat (toNat_aluMult u v) (Nat.mod_lt _ (by decide))

theorem aluNot_eq_ofNat (u : Value) : aluNot u = toCell (BitVec.ofNat 15 (32767 - u.toNat)) :=
  eq_toCell_ofNat (toNat_aluNot u) (by omega)

theorem truth_eq (b : Bool) : truth b = toCell (if b then 1 else 0) := by
  cases b <;> rfl

theorem compareEq_eq (u v : Value) : compareEq u v = toCell (if u.toNat = v.toNat then 1 else 0) := by
  simp only [compareEq, truth_eq, beq_iff_eq]

theorem compareGt_eq (u v : Value) : compareGt u v = toCell (if v.toNat < u.toNat then 1 else 0) := by
  simp only [compareGt, truth_eq, decide_eq_true_eq]

/-- Where all operands decode, a two-source ALU instruction writes its result, which is in range, as it is (43_alu.md R148). -/
theorem aluBinary_ok {op : Cell} {f : Value → Value → Cell} {d : RegIdx} {a b : Operand} {s : State} {u v w : Value}
    (hu : valueOf s a = some u) (hv : valueOf s b = some v) (hfits : s.fits 3) (hw : f u v = toCell w) :
    aluBinary op f (.reg d) a b s = { s with pc := s.pc + 4, x := s.x.set d.val w d.isLt } := by
  rw [aluBinary, formatRVV_ok hu hv hfits, hw, writeReg_toCell]
  rfl

/-- An instruction with the table row and the meaning of a two-source ALU instruction is one as `BinaryAlu` says it, with whatever
15-bit result the cell its operation computes stands for. -/
theorem binaryAlu_of_aluBinary {mk : Operand → Operand → Operand → Instr} {op : Cell} {f : Value → Value → Cell}
    {result : Value → Value → Value} (hopcode : ∀ dst a b, (mk dst a b).opcode = op)
    (hoperands : ∀ dst a b, (mk dst a b).operands = [(.dst, dst), (.val, a), (.val, b)])
    (hexec : ∀ dst a b s, exec (mk dst a b) s = .next (aluBinary op f dst a b s))
    (hresult : ∀ u v, f u v = toCell (result u v)) : BinaryAlu mk op result := by
  intro dst a b
  refine ⟨?encoding, fun s d u v hdst hu hv hfits => ?writes, fun s t hpc ht => ?faults⟩
  case encoding => rw [encode, hopcode, hoperands]; rfl
  case writes => subst hdst; rw [hexec, aluBinary_ok hu hv hfits (hresult u v)]
  case faults =>
    rw [hopcode, hoperands] at ht
    rw [hexec, aluBinary, formatRVV_fault hpc ht]

/-- Settles O32: eq is the two-source instruction of `compareEq`. -/
theorem eqWritesOneWhenEqual : Obligations.EqWritesOneWhenEqual :=
  binaryAlu_of_aluBinary (fun _ _ _ => rfl) (fun _ _ _ => rfl) (fun _ _ _ _ => rfl) compareEq_eq

/-- Settles O33: gt is the two-source instruction of `compareGt`. -/
theorem gtWritesOneWhenGreater : Obligations.GtWritesOneWhenGreater :=
  binaryAlu_of_aluBinary (fun _ _ _ => rfl) (fun _ _ _ => rfl) (fun _ _ _ _ => rfl) compareGt_eq

/-- Settles O34: add is the two-source instruction of `aluAdd`. -/
theorem addWritesSumModulo32768 : Obligations.AddWritesSumModulo32768 :=
  binaryAlu_of_aluBinary (fun _ _ _ => rfl) (fun _ _ _ => rfl) (fun _ _ _ _ => rfl) aluAdd_eq

/-- Settles O35: mult is the two-source instruction of `aluMult`. -/
theorem multWritesProductModulo32768 : Obligations.MultWritesProductModulo32768 :=
  binaryAlu_of_aluBinary (fun _ _ _ => rfl) (fun _ _ _ => rfl) (fun _ _ _ _ => rfl) aluMult_eq

/-- Settles O36: and is the two-source instruction of `aluAnd`, whose 16-bit result is that of the 15-bit AND. -/
theorem andWritesBitwiseAnd : Obligations.AndWritesBitwiseAnd :=
  binaryAlu_of_aluBinary (fun _ _ _ => rfl) (fun _ _ _ => rfl) (fun _ _ _ _ => rfl) aluAnd_eq

/-- Settles O37: or is the two-source instruction of `aluOr`, whose 16-bit result is that of the 15-bit OR. -/
theorem orWritesBitwiseOr : Obligations.OrWritesBitwiseOr :=
  binaryAlu_of_aluBinary (fun _ _ _ => rfl) (fun _ _ _ => rfl) (fun _ _ _ _ => rfl) aluOr_eq

/-- The meaning of not, from every state (43_alu.md R147). The complement is in range, so WriteReg writes it as it is. -/
theorem exec_not (dst a : Operand) (s : State) :
    exec (.not dst a) s =
      .next (formatRV 14 dst a s fun _ d u s => s.setReg d (BitVec.ofNat 15 (32767 - u.toNat))) := by
  simp only [exec, execNot, aluNot_eq_ofNat, writeReg_toCell]

/-- Settles O39: where both operands decode, `formatRV_ok` hands register and value to the write of the complement; an operand
that does not decode stops not by `formatRV_fault`. -/
theorem notWrites15BitComplement : Obligations.NotWrites15BitComplement := by
  intro dst a
  refine ⟨rfl, fun s d u hdst hu hfits => ?writes, fun s t hpc ht => ?faults⟩
  case writes => subst hdst; rw [exec_not, formatRV_ok hu hfits]; rfl
  case faults => rw [exec_not, formatRV_fault (op := 14) hpc ht]

end Sys2Proof.Machine
end

section
/-! PROOFS. The I/O family's own statement: out (44_io.md R160). -/

namespace Sys2Proof.Machine

/-- The meaning of out, from every state (44_io.md R160). -/
theorem exec_out (ch : Operand) (s : State) :
    exec (.out ch) s = .next (formatV 19 ch s fun _ v s => outWrite v s) := rfl

/-- Settles O42: where the operand decodes, `formatV_ok` hands its value to the sink with pc past both cells; an operand that does
not decode stops out by `formatV_fault`, before anything is output. -/
theorem outAppendsOneValue : Obligations.OutAppendsOneValue := by
  intro ch
  refine ⟨rfl, fun s v hch hfits => ?appends, fun s t hpc ht => ?faults⟩
  case appends => rw [exec_out, formatV_ok hch hfits]; rfl
  case faults => rw [exec_out, formatV_fault (op := 19) hpc ht]

end Sys2Proof.Machine
end

section
/-! PROOFS. The decoder's own statements: decode and encode are inverse to each other, and exactly the unknown opcode cells are
refused (30_encoding.md sections 1 and 3). -/

namespace Sys2Proof

/-! ### Decode of encode -/

theorem decodeOne_encode {mk : Operand → Instr} {a : Operand} (ha : a.classed = true) (rest : List Cell) :
    decodeOne mk (a.encode :: rest) = .ok (mk a, rest) := by
  rw [decodeOne, classify_encode ha]

theorem decodeTwo_encode {mk : Operand → Operand → Instr} {a b : Operand} (ha : a.classed = true) (hb : b.classed = true)
    (rest : List Cell) : decodeTwo mk (a.encode :: b.encode :: rest) = .ok (mk a b, rest) := by
  rw [decodeTwo, classify_encode ha, classify_encode hb]

theorem decodeThree_encode {mk : Operand → Operand → Operand → Instr} {a b c : Operand} (ha : a.classed = true)
    (hb : b.classed = true) (hc : c.classed = true) (rest : List Cell) :
    decodeThree mk (a.encode :: b.encode :: c.encode :: rest) = .ok (mk a b c, rest) := by
  rw [decodeThree, classify_encode ha, classify_encode hb, classify_encode hc]

/-- The opcode map sends an instruction's opcode to its own constructor (30_encoding.md R80), so what is left of the round trip is
the round trip of the operand cells. Illegal operands are no exception, as long as they are classed by R71. -/
theorem decode_encode {i : Instr} (h : ∀ ro ∈ i.operands, ro.2.classed = true) (rest : List Cell) :
    decode (encode i ++ rest) = .ok (i, rest) := by
  cases i with
  | halt | ret | noop => rfl
  | push a | pop a | jmp a | call a | out a | inp a => exact decodeOne_encode (h (_, a) (.head _)) rest
  | set a b | jt a b | jf a b | not a b | rmem a b | wmem a b =>
    exact decodeTwo_encode (h (_, a) (.head _)) (h (_, b) (.tail _ (.head _))) rest
  | eq a b c | gt a b c | add a b c | mult a b c | mod a b c | and a b c | or a b c =>
    exact decodeThree_encode (h (_, a) (.head _)) (h (_, b) (.tail _ (.head _))) (h (_, c) (.tail _ (.tail _ (.head _)))) rest

/-- Settles O9: a legal operand has the class of its cell, so `decode_encode` applies. -/
theorem decodeOfEncodeIsTheInstruction : Obligations.DecodeOfEncodeIsTheInstruction :=
  fun _ rest hwf => decode_encode (fun ro hro => Operand.classed_of_legal (Instr.wf_iff.1 hwf ro hro)) rest

/-! ### Encode of decode -/

/-- What the decoder may answer on cells whose opcode is known: too few cells, or an instruction whose encoding is exactly the
cells read, its operands classed by 30_encoding.md R71. -/
def ReadsCells (cells : List Cell) (answer : Except DecodeError (Instr × List Cell)) : Prop :=
  answer = .error .truncated ∨
    ∃ i rest, answer = .ok (i, rest) ∧ cells = encode i ++ rest ∧ ∀ ro ∈ i.operands, ro.2.classed = true

/-- An instruction whose operands are the classes of the operand cells encodes to the cells. -/
theorem readsCells_ok {op : Cell} {i : Instr} {operandCells : List Cell} (rest : List Cell) (hop : op = i.opcode)
    (hoperands : i.operands.map Prod.snd = operandCells.map classify) :
    ReadsCells (op :: (operandCells ++ rest)) (.ok (i, rest)) := by
  refine .inr ⟨i, rest, rfl, ?cells, fun ro hro => ?classed⟩
  case cells =>
    have hmap : i.operands.map (fun ro => ro.2.encode) = operandCells :=
      calc i.operands.map (fun ro => ro.2.encode) = (i.operands.map Prod.snd).map Operand.encode := by rw [List.map_map]; rfl
        _ = operandCells := by simp [hoperands, Function.comp_def]
    rw [encode, hmap, hop, List.cons_append]
  case classed =>
    have hmem : ro.2 ∈ operandCells.map classify := hoperands ▸ List.mem_map_of_mem hro
    obtain ⟨raw, -, hraw⟩ := List.mem_map.1 hmem
    rw [← hraw, classed_classify]

theorem readsCells_decodeOne {mk : Operand → Instr} {op : Cell} (cells : List Cell) (hop : ∀ a, op = (mk a).opcode)
    (hoperands : ∀ a, (mk a).operands.map Prod.snd = [a]) : ReadsCells (op :: cells) (decodeOne mk cells) :=
  match cells with
  | [] => .inl rfl
  | a :: rest => readsCells_ok (operandCells := [a]) rest (hop _) (hoperands _)

theorem readsCells_decodeTwo {mk : Operand → Operand → Instr} {op : Cell} (cells : List Cell)
    (hop : ∀ a b, op = (mk a b).opcode) (hoperands : ∀ a b, (mk a b).operands.map Prod.snd = [a, b]) :
    ReadsCells (op :: cells) (decodeTwo mk cells) :=
  match cells with
  | [] | [_] => .inl rfl
  | a :: b :: rest => readsCells_ok (operandCells := [a, b]) rest (hop _ _) (hoperands _ _)

theorem readsCells_decodeThree {mk : Operand → Operand → Operand → Instr} {op : Cell} (cells : List Cell)
    (hop : ∀ a b c, op = (mk a b c).opcode) (hoperands : ∀ a b c, (mk a b c).operands.map Prod.snd = [a, b, c]) :
    ReadsCells (op :: cells) (decodeThree mk cells) :=
  match cells with
  | [] | [_] | [_, _] => .inl rfl
  | a :: b :: c :: rest => readsCells_ok (operandCells := [a, b, c]) rest (hop _ _ _) (hoperands _ _ _)

/-- The decoder on a known opcode, row by row of the opcode map (30_encoding.md R80). -/
theorem readsCells_decode {op : Cell} (cells : List Cell) (h : op.toNat ≤ 21) :
    ReadsCells (op :: cells) (decode (op :: cells)) := by
  have hop : op = BitVec.ofNat 16 op.toNat := by simp
  generalize op.toNat = n at h hop
  subst hop
  match n, h with
  | 0, _ | 18, _ | 21, _ => exact readsCells_ok (operandCells := []) cells rfl rfl
  | 2, _ | 3, _ | 6, _ | 17, _ | 19, _ | 20, _ => exact readsCells_decodeOne cells (fun _ => rfl) fun _ => rfl
  | 1, _ | 7, _ | 8, _ | 14, _ | 15, _ | 16, _ => exact readsCells_decodeTwo cells (fun _ _ => rfl) fun _ _ => rfl
  | 4, _ | 5, _ | 9, _ | 10, _ | 11, _ | 12, _ | 13, _ =>
    exact readsCells_decodeThree cells (fun _ _ _ => rfl) fun _ _ _ => rfl
  | n + 22, h => exact absurd h (by omega)

/-- Settles O10: an unknown opcode gives no instruction, and a known one reads exactly its encoding by `readsCells_decode`. -/
theorem encodeOfDecodeIsTheCells : Obligations.EncodeOfDecodeIsTheCells := by
  intro cells rest i h
  cases cells with
  | nil => cases h
  | cons op cells =>
    rcases Nat.lt_or_ge 21 op.toNat with hop | hop
    · rw [decode_invalidOpcode cells hop] at h
      cases h
    · obtain htrunc | ⟨j, rest', hj, hcells, hclassed⟩ := readsCells_decode cells hop
      · rw [htrunc] at h
        cases h
      · rw [hj] at h
        cases h
        exact ⟨hcells, hclassed⟩

/-- Settles O11: a known opcode is never refused as an unknown one, by `readsCells_decode`; an unknown one always is. -/
theorem decoderRefusesExactlyUnknownOpcodes : Obligations.DecoderRefusesExactlyUnknownOpcodes := by
  intro op rest
  refine ⟨fun h => ?_, decode_invalidOpcode rest⟩
  by_contra hop
  obtain htrunc | ⟨i, rest', hi, -⟩ := readsCells_decode rest (Nat.not_lt.1 hop)
  · rw [htrunc] at h
    cases h
  · rw [hi] at h
    cases h

/-- Settles O12: each of the words is decoded by evaluation. -/
theorem writtenWordsDecode : Obligations.WrittenWordsDecode := by
  unfold Obligations.WrittenWordsDecode
  decide

end Sys2Proof
end

section
/-! PROOFS. The instruction cycle: which instruction, or which fault, the step of a Running core is (30_encoding.md sections 3
and 5). -/

namespace Sys2Proof.Machine

/-- The step of a Running core is the meaning of the instruction fetched. -/
theorem step_of_fetchInstr_ok {s : State} {i : Instr} (hrun : s.runState = .running) (h : fetchInstr s = .ok i) :
    step s = exec i s := by
  simp only [step, hrun, h]

/-- The step of a Running core whose fetch raises is that fault. -/
theorem step_of_fetchInstr_error {s t : State} (hrun : s.runState = .running) (h : fetchInstr s = .error t) :
    step s = .next t := by
  simp only [step, hrun, h]

/-- Inside memory, the instruction fetched is the one decoded. -/
theorem fetchInstr_of_decode {s : State} {i : Instr} {rest : List Cell} (hpc : s.pc.toNat ≤ 32767)
    (h : decode s.window = .ok (i, rest)) : fetchInstr s = .ok i := by
  have hin : s.pastEnd = false := decide_eq_false (Nat.not_lt.2 hpc)
  simp [fetchInstr, hin, h]

/-- Settles O13: `fetchInstr_of_decode` gives the fetch, and the step is what it fetched. -/
theorem stepRunsTheDecodedInstruction : Obligations.StepRunsTheDecodedInstruction :=
  fun _ _ _ hrun hpc h => step_of_fetchInstr_ok hrun (fetchInstr_of_decode hpc h)

/-- An instruction spans at most the four cells of the decoder's window (30_encoding.md R70). -/
theorem length_encode_le (i : Instr) : (encode i).length ≤ 4 := by
  cases i <;> simp [encode, Instr.operands]

theorem State.getElem?_window (s : State) {k : Nat} (hk : k < 4) : s.window[k]? = some (s.cellAt (s.pc.toNat + k)) := by
  match k, hk with
  | 0, _ | 1, _ | 2, _ | 3, _ => rfl

/-- An instruction stands in memory at pc: its cells are the memory cells from pc on, all inside 0..32767, and its operands have
the classes of their cells. -/
structure StandsAtPc (i : Instr) (s : State) : Prop where
  classed : ∀ ro ∈ i.operands, ro.2.classed = true
  inside : s.pc.toNat + (encode i).length ≤ 32768
  cells : ∀ k c, (encode i)[k]? = some c → s.memRead (BitVec.ofNat 15 (s.pc.toNat + k)) = c

/-- The window begins with the cells of an instruction that stands in memory at pc. -/
theorem StandsAtPc.window_begins_with_encode {i : Instr} {s : State} (h : StandsAtPc i s) : encode i <+: s.window := by
  rw [List.prefix_iff_getElem?]
  intro k hk
  have hfour := length_encode_le i
  have hinside := h.inside
  rw [s.getElem?_window (by omega), State.cellAt_of_lt (by omega), h.cells k _ (List.getElem?_eq_getElem hk)]

/-- The step of a Running core runs the instruction that stands in memory at pc: the window begins with its cells, which decode to
it by `decode_encode`. -/
theorem StandsAtPc.step_eq {i : Instr} {s : State} (h : StandsAtPc i s) (hrun : s.runState = .running) :
    step s = exec i s := by
  obtain ⟨rest, hrest⟩ := h.window_begins_with_encode
  have hlength : 0 < (encode i).length := Nat.succ_pos _
  have hinside := h.inside
  exact step_of_fetchInstr_ok hrun
    (fetchInstr_of_decode (rest := rest) (by omega) (by rw [← hrest, decode_encode h.classed]))

/-- Settles O14: the hypotheses say that the instruction stands at pc. -/
theorem stepRunsTheInstructionInMemory : Obligations.StepRunsTheInstructionInMemory :=
  fun _ _ hrun hclassed hinside hcells => StandsAtPc.step_eq ⟨hclassed, hinside, hcells⟩ hrun

/-- Settles O15: past the last cell the fetch has only one case, the fault. -/
theorem opcodeFetchPastTheEndFaults : Obligations.OpcodeFetchPastTheEndFaults := by
  intro s hrun hpc
  obtain ⟨-, hfetch⟩ | ⟨hin, -⟩ | ⟨hin, -⟩ := fetchInstr_cases s
  · exact step_of_fetchInstr_error hrun hfetch
  · omega
  · omega

/-- Settles O16: inside memory the fetch has two cases, told apart by the opcode cell. -/
theorem unknownOpcodeCellsFault : Obligations.UnknownOpcodeCellsFault := by
  intro s hrun hpc
  rw [← State.cellAt_of_lt (s := s) (a := s.pc.toNat) (by omega)]
  obtain ⟨hpast, -⟩ | ⟨-, hknown, i, -, -, hop, hfetch⟩ | ⟨-, hunknown, hfetch⟩ := fetchInstr_cases s
  · omega
  · exact ⟨fun _ => by omega, fun _ => ⟨i, hop, step_of_fetchInstr_ok hrun hfetch⟩⟩
  · exact ⟨fun _ => step_of_fetchInstr_error hrun hfetch, fun _ => by omega⟩

end Sys2Proof.Machine
end

section
/-! PROOFS. The host's side: reset, the loader and boot order, the status port (70_reset_and_hazards.md sections 1 and 2,
10_state.md section 7), and the codes of the fault kinds. -/

namespace Sys2Proof.Machine

/-! ### Reset and the invariant -/

/-- 70_reset_and_hazards.md R210: the registers after rst. -/
@[simp] theorem assertReset_reg (s : State) (i : RegIdx) : (assertReset s).reg i = 0 := by
  simp [State.reg]

/-- Settles O2: the registers by `assertReset_reg`; everything else is a field that rst sets or keeps. -/
theorem resetInputKeepsMemory : Obligations.ResetInputKeepsMemory :=
  fun s => ⟨rfl, assertReset_reg s, rfl, rfl, rfl, fun _ => rfl, rfl, rfl, rfl⟩

/-- The cleared fault record agrees with its kind, none (10_state.md R40). -/
theorem FaultRecord.consistent_cleared : FaultRecord.cleared.Consistent where
  reg _ := rfl
  raw _ _ _ := rfl
  opcode := nofun
  value := nofun
  ipc := Nat.zero_le _
  addr := Nat.zero_le _
  pastEnd := nofun

/-- rst ends in the invariant, whatever the state it finds holds beside a canonical memory. -/
theorem inv_assertReset {s : State} (hmem : s.mem.wf) : (assertReset s).Inv where
  mem := hmem
  pc := Nat.zero_le _
  stack := nofun
  capacity _ _ := Nat.zero_le _
  noFault _ := rfl
  faultKind := nofun
  faultFields := FaultRecord.consistent_cleared
  waitPc := nofun
  waitEof := nofun

/-- Settles O3: the reset state is what rst makes of it. -/
theorem invariantHoldsAtReset : Obligations.InvariantHoldsAtReset :=
  inv_assertReset (s := State.reset) reset_mem_wf

/-! ### The loader -/

/-- The boot order on an image that the loader accepts (70_reset_and_hazards.md R216). -/
theorem launch_of_loadImage_ok {bytes : List Byte} {s : State} {m : Memory} (h : loadImage bytes s.mem = .ok m) :
    launch bytes s = .ok (assertReset { s with mem := m }) := by
  simp only [launch, h]

/-- The boot order on an image that the loader rejects. -/
theorem launch_of_loadImage_error {bytes : List Byte} {s : State} {e : LoadError} (h : loadImage bytes s.mem = .error e) :
    launch bytes s = .error e := by
  simp only [launch, h]

/-- Settles O5: the loader keeps memory canonical by `loadImage_wf`, and rst does the rest. -/
theorem launchEstablishesTheInvariant : Obligations.LaunchEstablishesTheInvariant := by
  intro bytes s t hmem h
  cases hload : loadImage bytes s.mem with
  | error e =>
    rw [launch_of_loadImage_error hload] at h
    cases h
  | ok m =>
    rw [launch_of_loadImage_ok hload] at h
    cases h
    exact inv_assertReset (loadImage_wf hmem hload)

/-- An image of 2n bytes has n words, each of its two bytes, the low one first (70_reset_and_hazards.md R213). -/
theorem imageWords_of_even {bytes : List Byte} {n : Nat} (h : bytes.length = 2 * n) :
    ∃ ws, imageWords bytes = some ws ∧ ws.length = n ∧
      ∀ k lo hi, bytes[2 * k]? = some lo → bytes[2 * k + 1]? = some hi →
        ws[k]? = some (BitVec.ofNat 16 (lo.toNat + 256 * hi.toNat)) := by
  induction n generalizing bytes with
  | zero =>
    obtain rfl : bytes = [] := List.length_eq_zero_iff.1 h
    exact ⟨[], rfl, rfl, fun _ _ _ hlo _ => by simp at hlo⟩
  | succ n ih =>
    match bytes, h with
    | lo :: hi :: rest, h =>
      obtain ⟨ws, hws, hlength, hword⟩ := ih (bytes := rest) (by simp only [List.length_cons] at h; omega)
      refine ⟨_ :: ws, by rw [imageWords, hws], by rw [List.length_cons, hlength], fun k lo' hi' hlo hhi => ?_⟩
      cases k with
      | zero => cases hlo; cases hhi; rfl
      | succ k => exact hword k lo' hi' hlo hhi

/-- An image of an odd number of bytes has no words (70_reset_and_hazards.md R215). -/
theorem imageWords_of_odd {bytes : List Byte} {n : Nat} (h : bytes.length = 2 * n + 1) : imageWords bytes = none := by
  induction n generalizing bytes with
  | zero =>
    obtain ⟨b, rfl⟩ := List.length_eq_one_iff.1 h
    rfl
  | succ n ih =>
    match bytes, h with
    | lo :: hi :: rest, h => rw [imageWords, ih (bytes := rest) (by simp only [List.length_cons] at h; omega)]

/-- Reading memory where words were placed from address 0 up (70_reset_and_hazards.md R212, R214). -/
theorem memRead_place (s : State) {ws : List Cell} (a : Value) :
    ({ s with mem := s.mem.place 0 ws } : State).memRead a = ws[a.toNat]?.getD (s.memRead a) := by
  have ha := a.isLt
  simp only [State.memRead, Memory.lookup_place]
  by_cases h : a.toNat < ws.length
  · rw [if_pos (by omega), Nat.sub_zero, List.getElem?_eq_getElem h]; rfl
  · rw [if_neg (by omega), List.getElem?_eq_none (Nat.not_lt.1 h)]; rfl

/-- Settles O6: the words of the image by `imageWords_of_even`, read back by `memRead_place`; no words by `imageWords_of_odd`. -/
theorem loaderPlacesLittleEndianWords : Obligations.LoaderPlacesLittleEndianWords := by
  intro bytes s n
  refine ⟨fun heven hfits => ?loads, fun heven hlong => ?tooLarge, fun hodd => ?malformed⟩
  case loads =>
    obtain ⟨ws, hws, hlength, hword⟩ := imageWords_of_even heven
    have hload : loadImage bytes s.mem = .ok (s.mem.place 0 ws) := by
      rw [loadImage, hws]
      exact if_neg (by omega)
    refine ⟨_, launch_of_loadImage_ok hload, rfl, fun k lo hi hk hlo hhi => ?word, fun a ha => ?beyond⟩
    case word =>
      have hread := memRead_place s (ws := ws) (BitVec.ofNat 15 k)
      rw [BitVec.toNat_ofNat, Nat.mod_eq_of_lt (by omega), hword k lo hi hlo hhi, Option.getD_some] at hread
      have hbyte := lo.isLt
      have hbyte' := hi.isLt
      calc _ = (BitVec.ofNat 16 (lo.toNat + 256 * hi.toNat)).toNat := congrArg BitVec.toNat hread
        _ = lo.toNat + 256 * hi.toNat := Nat.mod_eq_of_lt (by omega)
    case beyond =>
      have hread := memRead_place s (ws := ws) a
      rwa [List.getElem?_eq_none (by omega)] at hread
  case tooLarge =>
    obtain ⟨ws, hws, hlength, -⟩ := imageWords_of_even heven
    refine launch_of_loadImage_error ?_
    rw [loadImage, hws]
    exact if_pos (by omega)
  case malformed =>
    refine launch_of_loadImage_error ?_
    rw [loadImage, imageWords_of_odd hodd]

/-! ### The status port and the fault codes -/

/-- Settles O7: the port's three fields, each by the run states it is shown in. -/
theorem statusPortShowsStoppedStateOnly : Obligations.StatusPortShowsStoppedStateOnly := by
  intro s
  cases hrun : s.runState <;> simp [statusPort, RunState.shown, State.ended, hrun]

/-- Settles O57: the table itself. -/
theorem faultCodesAreTheTable : Obligations.FaultCodesAreTheTable := by
  unfold Obligations.FaultCodesAreTheTable
  decide

end Sys2Proof.Machine
end

section
/-! PROOFS. The instructions' own statements that the families before left open: halt, jt, jf, call, ret (41_control.md), push, pop,
rmem, wmem (42_data.md), mod (43_alu.md), in (44_io.md), and WriteReg (10_state.md R25). -/

namespace Sys2Proof.Machine

open Sys2Proof.Shape

/-! ### Rules the instructions share -/

/-- Where its operand does not decode, an instruction of format R stops with that operand's fault, whatever it would have done
with the register. -/
theorem formatR_fault {op : Cell} {d : Operand} {s t : State} (hpc : s.pc.toNat ≤ 32767)
    (ht : OperandFault op [(.dst, d)] s t) (k : Current → RegIdx → State → State) : formatR op d s k = t := by
  obtain ⟨i, rfl, hfits, -⟩ | ⟨t', ht', hstop⟩ := formatR_cases (op := op) (d := d) hpc
  · have hreg : (Operand.reg i).legalIn .dst = true := rfl
    exact (ht.absent ⟨by simp [hreg], hfits⟩).elim
  · rw [hstop, ht'.unique ht]

/-- Where one of its operands does not decode, an instruction of format VV stops with that operand's fault, whatever it would have
done with the values. -/
theorem formatVV_fault {op : Cell} {a b : Operand} {s t : State} (hpc : s.pc.toNat ≤ 32767)
    (ht : OperandFault op [(.val, a), (.val, b)] s t) (k : Current → Value → Value → State → State) :
    formatVV op a b s k = t := by
  obtain ⟨u, v, hu, hv, hfits, -⟩ | ⟨t', ht', hstop⟩ := formatVV_cases (op := op) (a := a) (b := b) hpc
  · exact (ht.absent ⟨by simp [legal_of_valueOf hu, legal_of_valueOf hv], hfits⟩).elim
  · rw [hstop, ht'.unique ht]

/-- An execute-time fault after n + 1 cells names the last of them and leaves pc past it (10_state.md R40, 60_exceptions.md
R190). -/
theorem raise_at (kind : FaultKind) (op raw : Cell) (reg : RegIdx) (s : State) (n : Nat) :
    raise kind ⟨s.pc, op⟩ (s.at (n + 1)).lastCell raw reg (s.at (n + 1)) =
      { s with
        pc := s.pc + BitVec.ofNat 16 (n + 1), runState := .faulted,
        fault := ⟨kind, s.pc, s.pc + BitVec.ofNat 16 n, op, raw, reg⟩ } := by
  rw [State.at_lastCell]
  rfl

/-- An operand fault leaves the core Faulted. -/
theorem OperandFault.runState {op : Cell} {ops : List (Role × Operand)} {s t : State} (h : OperandFault op ops s t) :
    t.runState = .faulted := by
  obtain ⟨k, role, o, -, -, ⟨-, rfl⟩ | ⟨-, -, rfl⟩⟩ := h <;> rfl

/-! ### Control -/

/-- The meaning of halt, from every state (41_control.md R100). -/
theorem exec_halt (s : State) : exec .halt s = .next { s with pc := s.pc + 1, runState := .halted } := rfl

/-- The meaning of noop, from every state (41_control.md R106). -/
theorem exec_noop (s : State) : exec .noop s = .next { s with pc := s.pc + 1 } := rfl

/-- A halted core answers itself. -/
theorem step_of_halted {s : State} (h : s.runState = .halted) : step s = .next s := by
  simp only [step, h, terminalStep]

/-- A faulted core answers itself. -/
theorem step_of_faulted {s : State} (h : s.runState = .faulted) : step s = .next s := by
  simp only [step, h, terminalStep]

/-- Settles O18: the halted state steps to itself, so it stays for any number of steps. -/
theorem haltStopsForGood : Obligations.HaltStopsForGood :=
  ⟨rfl, fun s n => ⟨exec_halt s, runSteps_of_fixed n (step_of_halted rfl)⟩⟩

/-- An instruction with the table row and the meaning of a conditional jump is one as `ConditionalJump` says it. -/
theorem conditionalJump_of_formatVV {mk : Operand → Operand → Instr} {op : Cell} {taken : Value → Prop}
    [DecidablePred taken] (hopcode : ∀ cond addr, (mk cond addr).opcode = op)
    (hoperands : ∀ cond addr, (mk cond addr).operands = [(.val, cond), (.val, addr)])
    (hexec : ∀ cond addr s, exec (mk cond addr) s =
      .next (formatVV op cond addr s fun _ c t s => if taken c then s.jump (toCell t) else s)) :
    ConditionalJump mk op taken := by
  intro cond addr
  refine ⟨?encoding, fun s c t hc ht hfits htaken => ?taken, fun s c t hc ht hfits hnot => ?notTaken,
    fun s t hpc ht => ?faults⟩
  case encoding => rw [encode, hopcode, hoperands]; rfl
  case taken => rw [hexec, formatVV_ok hc ht hfits, if_pos htaken]; rfl
  case notTaken => rw [hexec, formatVV_ok hc ht hfits, if_neg hnot]; rfl
  case faults =>
    rw [hopcode, hoperands] at ht
    rw [hexec, formatVV_fault hpc ht]

/-- The meaning of jt, from every state (41_control.md R102). -/
theorem exec_jt (cond addr : Operand) (s : State) :
    exec (.jt cond addr) s =
      .next (formatVV 7 cond addr s fun _ c t s => if c ≠ 0 then s.jump (toCell t) else s) := by
  simp only [exec, execJt, isNonZero, bne_iff_ne]

/-- The meaning of jf, from every state (41_control.md R103). -/
theorem exec_jf (cond addr : Operand) (s : State) :
    exec (.jf cond addr) s =
      .next (formatVV 8 cond addr s fun _ c t s => if c = 0 then s.jump (toCell t) else s) := by
  simp only [exec, execJf, isNonZero, bne_iff_ne, ite_not]

/-- Settles O20: jt is the conditional jump that a non-zero condition takes. -/
theorem jtJumpsOnNonZero : Obligations.JtJumpsOnNonZero :=
  conditionalJump_of_formatVV (fun _ _ => rfl) (fun _ _ => rfl) exec_jt

/-- Settles O21: jf is the conditional jump that a zero condition takes. -/
theorem jfJumpsOnZero : Obligations.JfJumpsOnZero :=
  conditionalJump_of_formatVV (fun _ _ => rfl) (fun _ _ => rfl) exec_jf

/-- The meaning of call, from every state (41_control.md R104). -/
theorem exec_call (addr : Operand) (s : State) :
    exec (.call addr) s =
      .next (formatV 17 addr s fun cur t s => (pushStack cur s.pc s).andThen fun _ s => s.jump (toCell t)) := rfl

/-- Settles O22: a decoded operand reaches Push by `formatV_ok`, which has room or raises; an operand that does not decode stops
call by `formatV_fault`. -/
theorem callPushesReturnAddress : Obligations.CallPushesReturnAddress := by
  intro addr
  refine ⟨rfl, fun s t ht hfits hroom => ?calls, fun s t ht hfits hfull => ?overflows, fun s t hpc ht => ?faults⟩
  case calls => rw [exec_call, formatV_ok ht hfits, pushStack_room (s := s.at 2) hroom]; rfl
  case overflows =>
    rw [exec_call, formatV_ok ht hfits, pushStack_full (s := s.at 2) hfull, Resolved.andThen_raised]
    exact congrArg _ (raise_at .stackOverflow 17 0 0 s 1)
  case faults => rw [exec_call, formatV_fault (op := 17) hpc ht]

/-- The meaning of ret, from every state (41_control.md R105). -/
theorem exec_ret (s : State) :
    exec .ret s = .next ((popStack ⟨s.pc, 18⟩ (s.at 1)).andThen fun t s => s.jump t) := rfl

/-- ret on a non-empty stack (41_control.md R105). -/
theorem exec_ret_of_append {s : State} {below : List Cell} {t : Cell} (h : s.stack = below ++ [t]) :
    exec .ret s = .next { s with pc := t, stack := below } := by
  rw [exec_ret, popStack_append (s := s.at 1) h]
  rfl

/-- Settles O23: Pop takes the top entry, or raises on the empty stack. -/
theorem retPopsPc : Obligations.RetPopsPc := by
  refine ⟨rfl, fun s below t h => exec_ret_of_append h, fun s h => ?underflows⟩
  rw [exec_ret, popStack_nil (s := s.at 1) h, Resolved.andThen_raised]
  refine congrArg _ ((raise_at .stackUnderflow 18 0 0 s 0).trans ?_)
  rw [show s.pc + BitVec.ofNat 16 0 = s.pc from BitVec.add_zero s.pc]
  rfl

/-- A call that leaves the core Running pushed ipc + 2: its operand decoded, and Push had room. -/
theorem stack_of_exec_call {addr : Operand} {s t : State} (hpc : s.pc.toNat ≤ 32767) (h : exec (.call addr) s = .next t)
    (hrun : t.runState = .running) : t.stack = s.stack ++ [s.pc + 2] := by
  rw [exec_call] at h
  obtain ⟨u, -, -, hcall⟩ | ⟨t', ht', hcall⟩ := formatV_cases (op := 17) (a := addr) hpc <;> rw [hcall] at h <;> cases h
  · obtain ⟨-, hpush⟩ | ⟨-, hpush⟩ := pushStack_cases ⟨s.pc, 17⟩ (s.at 2).pc (s.at 2) <;> rw [hpush] at hrun ⊢
    · cases hrun
    · rfl
  · rw [ht'.runState] at hrun
    cases hrun

/-- Settles O25: the call left ipc + 2 on top of the old stack, which is what ret pops. -/
theorem retResumesAfterTheCall : Obligations.RetResumesAfterTheCall :=
  fun _ _ _ _ hpc _ hcall hrun hstack => exec_ret_of_append (hstack.trans (stack_of_exec_call hpc hcall hrun))

/-! ### Data movement -/

/-- The meaning of push, from every state (42_data.md R121). -/
theorem exec_push (src : Operand) (s : State) :
    exec (.push src) s =
      .next (formatV 2 src s fun cur v s => (pushStack cur (toCell v) s).andThen fun _ s => s) := rfl

/-- Settles O27: a decoded operand reaches Push by `formatV_ok`, which has room or raises; an operand that does not decode stops
push by `formatV_fault`. -/
theorem pushAppendsValue : Obligations.PushAppendsValue := by
  intro src
  refine ⟨rfl, fun s v hv hfits hroom => ?pushes, fun s v hv hfits hfull => ?overflows, fun s t hpc ht => ?faults⟩
  case pushes => rw [exec_push, formatV_ok hv hfits, pushStack_room (s := s.at 2) hroom]; rfl
  case overflows =>
    rw [exec_push, formatV_ok hv hfits, pushStack_full (s := s.at 2) hfull, Resolved.andThen_raised]
    exact congrArg _ (raise_at .stackOverflow 2 0 0 s 1)
  case faults => rw [exec_push, formatV_fault (op := 2) hpc ht]

/-- The meaning of pop, from every state (42_data.md R122). -/
theorem exec_pop (dst : Operand) (s : State) :
    exec (.pop dst) s =
      .next (formatR 3 dst s fun cur d s => (popStack cur s).andThen fun v t => writeReg cur d v s t) := rfl

/-- pop of a register on a non-empty stack: WriteReg of the top entry, over the state with or without it. -/
theorem exec_pop_of_append {s : State} {d : RegIdx} {below : List Cell} {v : Cell} (hfits : s.fits 1)
    (hstack : s.stack = below ++ [v]) :
    exec (.pop (.reg d)) s = .next (writeReg ⟨s.pc, 3⟩ d v (s.at 2) { s.at 2 with stack := below }) := by
  rw [exec_pop, formatR_ok hfits, popStack_append (s := s.at 2) hstack]
  rfl

/-- Settles O28: a decoded operand reaches Pop by `formatR_ok`, and the entry WriteReg, which stores it or raises; an operand that
does not decode stops pop by `formatR_fault`. -/
theorem popMovesTopEntry : Obligations.PopMovesTopEntry := by
  intro dst
  refine ⟨rfl, fun s d below v hdst hfits hstack hv => ?moves, fun s d below v hdst hfits hstack hv hp => ?outOfRange,
    fun s d hdst hfits hstack => ?underflows, fun s t hpc ht => ?faults⟩
  case moves => subst hdst; rw [exec_pop_of_append hfits hstack, writeReg_stored (s := { s.at 2 with stack := below }) hv]; rfl
  case outOfRange =>
    subst hdst
    rw [exec_pop_of_append hfits hstack, writeReg_fault (s := { s.at 2 with stack := below }) hv hp]
    exact congrArg _ (raise_at .registerValueOutOfRange 3 v d s 1)
  case underflows =>
    subst hdst
    rw [exec_pop, formatR_ok hfits, popStack_nil (s := s.at 2) hstack, Resolved.andThen_raised]
    exact congrArg _ (raise_at .stackUnderflow 3 0 0 s 1)
  case faults => rw [exec_pop, formatR_fault (op := 3) hpc ht]

/-- The meaning of rmem, from every state (42_data.md R123). -/
theorem exec_rmem (dst addr : Operand) (s : State) :
    exec (.rmem dst addr) s = .next (formatRV 15 dst addr s fun cur d a s => writeReg cur d (s.memRead a) s s) := rfl

/-- rmem with both operands decoded: WriteReg of the raw cell. -/
theorem exec_rmem_ok {s : State} {d : RegIdx} {addr : Operand} {a : Value} (ha : valueOf s addr = some a)
    (hfits : s.fits 2) :
    exec (.rmem (.reg d) addr) s = .next (writeReg ⟨s.pc, 15⟩ d (s.memRead a) (s.at 3) (s.at 3)) := by
  rw [exec_rmem, formatRV_ok ha hfits]
  rfl

/-- Settles O29: decoded operands reach WriteReg of the cell by `formatRV_ok`, which stores it or raises; an operand that does
not decode stops rmem by `formatRV_fault`. -/
theorem rmemReadsTheCell : Obligations.RmemReadsTheCell := by
  intro dst addr
  refine ⟨rfl, fun s d a hdst ha hfits hv => ?reads, fun s d a hdst ha hfits hv hp => ?outOfRange, fun s t hpc ht => ?faults⟩
  case reads => subst hdst; rw [exec_rmem_ok ha hfits, writeReg_stored (s := s.at 3) hv]; rfl
  case outOfRange =>
    subst hdst
    rw [exec_rmem_ok ha hfits, writeReg_fault (s := s.at 3) hv hp]
    exact congrArg _ (raise_at .registerValueOutOfRange 15 (s.memRead a) d s 2)
  case faults => rw [exec_rmem, formatRV_fault (op := 15) hpc ht]

/-- The meaning of wmem, from every state (42_data.md R124). -/
theorem exec_wmem (addr src : Operand) (s : State) :
    exec (.wmem addr src) s = .next (formatVV 16 addr src s fun _ a v s => s.memWrite a (toCell v)) := rfl

/-- wmem with both operands decoded. -/
theorem exec_wmem_ok {s : State} {addr src : Operand} {a v : Value} (ha : valueOf s addr = some a)
    (hv : valueOf s src = some v) (hfits : s.fits 2) :
    exec (.wmem addr src) s = .next ((s.at 3).memWrite a (toCell v)) := by
  rw [exec_wmem, formatVV_ok ha hv hfits]

/-- Settles O30: decoded operands reach the store by `formatVV_ok`, whose reads `State.memRead_memWrite` gives; an operand that
does not decode stops wmem by `formatVV_fault`. -/
theorem wmemWritesTheCell : Obligations.WmemWritesTheCell := by
  intro addr src
  refine ⟨rfl, fun s a v ha hv hfits => ?stores, fun s t hpc ht => ?faults⟩
  case stores =>
    refine ⟨_, exec_wmem_ok ha hv hfits, rfl, fun c => ?_⟩
    rw [State.memRead_memWrite, if_congr eq_comm rfl rfl]
    rfl
  case faults => rw [exec_wmem, formatVV_fault (op := 16) hpc ht]

/-! ### ALU -/

theorem aluMod_eq (u v : Value) : aluMod u v = toCell (BitVec.ofNat 15 (u.toNat % v.toNat)) :=
  eq_toCell_ofNat (toNat_aluMod u v) (Nat.lt_of_le_of_lt (Nat.mod_le _ _) u.isLt)

/-- The meaning of mod, from every state (43_alu.md R144). A remainder is in range, so WriteReg writes it as it is. -/
theorem exec_mod (dst a b : Operand) (s : State) :
    exec (.mod dst a b) s = .next (formatRVV 11 dst a b s fun cur d u v s =>
      if v = 0 then raise .divideByZero cur s.lastCell 0 0 s
      else s.setReg d (BitVec.ofNat 15 (u.toNat % v.toNat))) := by
  simp only [exec, execMod, aluMod_eq, writeReg_toCell]

/-- Settles O38: decoded operands reach the test of the divisor by `formatRVV_ok`; an operand that does not decode stops mod by
`formatRVV_fault`. -/
theorem modWritesRemainderOrFaults : Obligations.ModWritesRemainderOrFaults := by
  intro dst a b
  refine ⟨rfl, fun s d u v hdst hu hv hfits hne => ?writes, fun s d u hdst hu hv hfits => ?byZero, fun s t hpc ht => ?faults⟩
  case writes => subst hdst; rw [exec_mod, formatRVV_ok hu hv hfits, if_neg hne]; rfl
  case byZero =>
    subst hdst
    rw [exec_mod, formatRVV_ok hu hv hfits, if_pos rfl]
    exact congrArg _ (raise_at .divideByZero 11 0 0 s 3)
  case faults => rw [exec_mod, formatRVV_fault (op := 11) hpc ht]

/-! ### The input instruction and WriteReg -/

/-- The meaning of in, from every state (44_io.md R161). -/
theorem exec_inp (dst : Operand) (s : State) :
    exec (.inp dst) s = .next (formatR 20 dst s fun _ d s => { s with runState := .waitInput d false }) := rfl

/-- Settles O43: a decoded destination is latched by `formatR_ok`; one that does not decode stops in by `formatR_fault`. -/
theorem inWaitsForInput : Obligations.InWaitsForInput := by
  intro dst
  refine ⟨rfl, fun s d hdst hfits => ?waits, fun s t hpc ht => ?faults⟩
  case waits => subst hdst; rw [exec_inp, formatR_ok hfits]; rfl
  case faults => rw [exec_inp, formatR_fault (op := 20) hpc ht]

/-- What the registers read after a write of the number n, in range. -/
theorem toNat_reg_setReg (s : State) (d i : RegIdx) {n : Nat} (hn : n < 32768) :
    ((s.setReg d (BitVec.ofNat 15 n)).reg i).toNat = if i = d then n else (s.reg i).toNat := by
  rw [State.reg_setReg, if_congr eq_comm rfl rfl, apply_ite BitVec.toNat, BitVec.toNat_ofNat, Nat.mod_eq_of_lt hn]

/-- Settles O40: WriteReg's three rules, one for each branch of R25. -/
theorem writeRegFollowsHighWritePolicy : Obligations.WriteRegFollowsHighWritePolicy := by
  intro cur d v s
  refine ⟨fun hv i => ?inRange, fun hv hp i => ?masked, fun hv hp => ?raises⟩
  case inRange => rw [writeReg_of_le hv, toNat_reg_setReg s d i (by omega)]
  case masked => rw [writeReg_mask15 hv hp, toNat_reg_setReg s d i (Nat.mod_lt _ (by decide))]
  case raises => rw [writeReg_fault hv hp]; rfl

end Sys2Proof.Machine
end

section
/-! PROOFS. A store is seen by the very next fetch (20_memory.md section 4). -/

namespace Sys2Proof.Machine

/-- pc after three cells, where they stand inside memory. -/
theorem State.at_three_pc_toNat {s : State} (hfits : s.fits 2) : (s.at 3).pc.toNat = s.pc.toNat + 3 := by
  simp only [State.fits] at hfits
  exact State.at_pc_toNat (by omega)

/-- The cell at a number n inside memory, after a store to a. -/
theorem memRead_memWrite_ofNat (s : State) (a : Value) (v : Cell) {n : Nat} (hn : n < 32768) :
    (s.memWrite a v).memRead (BitVec.ofNat 15 n) = if a.toNat = n then v else s.memRead (BitVec.ofNat 15 n) := by
  rw [State.memRead_memWrite]
  refine if_congr ?_ rfl rfl
  rw [← BitVec.toNat_inj, BitVec.toNat_ofNat, Nat.mod_eq_of_lt hn]

/-- After a completed wmem, an instruction stands at pc where its cells stand after the wmem, the stored cell counted as v. -/
theorem standsAtPc_memWrite {s : State} {a v : Value} {i : Instr} (hfits : s.fits 2)
    (hclassed : ∀ ro ∈ i.operands, ro.2.classed = true) (hinside : s.pc.toNat + 3 + (encode i).length ≤ 32768)
    (hcells : ∀ k c, (encode i)[k]? = some c →
      c = if a.toNat = s.pc.toNat + 3 + k then toCell v else s.memRead (BitVec.ofNat 15 (s.pc.toNat + 3 + k))) :
    StandsAtPc i ((s.at 3).memWrite a (toCell v)) where
  classed := hclassed
  inside := by rwa [State.memWrite_pc, State.at_three_pc_toNat hfits]
  cells k c hk := by
    have hlt : k < (encode i).length := (List.getElem?_eq_some_iff.1 hk).1
    rw [State.memWrite_pc, State.at_three_pc_toNat hfits, memRead_memWrite_ofNat _ _ _ (by omega), hcells k c hk]
    rfl

/-- A store to the cell just after the wmem puts there an instruction of one cell, the one of that opcode. -/
theorem standsAtPc_memWrite_opcode {s : State} {a v : Value} {i : Instr} (hfits : s.fits 2)
    (ha : a.toNat = s.pc.toNat + 3) (hi : encode i = [toCell v]) : StandsAtPc i ((s.at 3).memWrite a (toCell v)) := by
  have haddr := a.isLt
  have hoperands : i.operands = [] := List.map_eq_nil_iff.1 (List.cons.inj hi).2
  refine standsAtPc_memWrite hfits (by simp [hoperands]) (by rw [hi, List.length_singleton]; omega) fun k c hk => ?_
  rw [hi] at hk
  cases k with
  | zero => rw [if_pos ha]; exact (Option.some.inj hk).symm
  | succ k => cases hk

/-- Settles O31: the wmem leaves the store with pc past its three cells. What stands there is then run by `StandsAtPc.step_eq`; a
stored opcode of an instruction with operands, and an unknown one, by the opcode fetch of O16. -/
theorem storeIsSeenByTheNextFetch : Obligations.StoreIsSeenByTheNextFetch := by
  intro s t addr src a v hrun hfits ha hv hexec
  rw [exec_wmem_ok ha hv hfits] at hexec
  cases hexec
  have hnext : s.pc + 3 + 1 = s.pc + 4 := by rw [BitVec.add_assoc]; rfl
  refine ⟨fun hpc => ⟨fun hzero => ?halts, fun hnoop => ?noop, ?knownOpcode⟩, fun i hclassed hinside hcells => ?operands⟩
  case halts =>
    subst hzero
    rw [(standsAtPc_memWrite_opcode hfits hpc rfl).step_eq (i := .halt) hrun, exec_halt]
    exact congrArg (fun pc => Host.Outcome.next { (s.at 3).memWrite a (toCell 0) with pc := pc, runState := .halted }) hnext
  case noop =>
    subst hnoop
    rw [(standsAtPc_memWrite_opcode hfits hpc rfl).step_eq (i := .noop) hrun, exec_noop]
    exact congrArg (fun pc => Host.Outcome.next { (s.at 3).memWrite a (toCell 21) with pc := pc }) hnext
  case knownOpcode =>
    have haddr := a.isLt
    have hat : ((s.at 3).memWrite a (toCell v)).pc.toNat = s.pc.toNat + 3 := State.at_three_pc_toNat hfits
    have hopcode := unknownOpcodeCellsFault ((s.at 3).memWrite a (toCell v)) hrun (by omega)
    rw [hat, memRead_memWrite_ofNat _ _ _ (by omega), if_pos hpc, toNat_toCell] at hopcode
    obtain ⟨hfaults, hdispatches⟩ := hopcode
    refine ⟨hdispatches, fun hunknown => (hfaults hunknown).trans ?_⟩
    exact congrArg (fun pc => Host.Outcome.next { (s.at 3).memWrite a (toCell v) with
      pc := pc, runState := .faulted, fault := ⟨.invalidOpcode, s.pc + 3, s.pc + 3, toCell v, toCell v, 0⟩ }) hnext
  case operands => exact (standsAtPc_memWrite hfits hclassed hinside hcells).step_eq hrun

end Sys2Proof.Machine
end

section
/-! PROOFS. Everything an instruction at pc ≤ 32767 can leave, with pc and fault record exactly (30_encoding.md section 5): one
operand fault, or, all operands decoded, one of the effects below. `exec_elim` says less of pc and the record, but of every pc. -/

namespace Sys2Proof.Machine

/-- A register is legal as a destination (30_encoding.md R76). -/
@[simp] theorem legalIn_dst_reg (r : RegIdx) : (Operand.reg r).legalIn .dst = true := rfl

/-- The fault kinds an instruction can raise once its operands are decoded, with what the record then holds in `raw` and `reg`
(10_state.md R40; 60_exceptions.md R183, R185, R186, R188). -/
inductive ExecuteFault : FaultKind → Cell → RegIdx → Prop
  | stackOverflow : ExecuteFault .stackOverflow 0 0
  | stackUnderflow : ExecuteFault .stackUnderflow 0 0
  | divideByZero : ExecuteFault .divideByZero 0 0
  | registerValueOutOfRange {v : Cell} (d : RegIdx) (h : 32767 < v.toNat) : ExecuteFault .registerValueOutOfRange v d

/-- The state with all cells of an instruction consumed. -/
def State.past (s : State) (i : Instr) : State := s.at (i.operands.length + 1)

/-- What an instruction leaves where all its operands decode: an execute-time fault, or its one effect beside the pc advance. -/
inductive Effect : Instr → State → State → Prop
  | raised {i s kind raw reg} (h : ExecuteFault kind raw reg) :
    Effect i s (raise kind ⟨s.pc, i.opcode⟩ (s.past i).lastCell raw reg (s.past i))
  | advanced {i s} : Effect i s (s.past i)
  | halted {s} : Effect .halt s { s.past .halt with runState := .halted }
  | jumped {i s} (t : Value) : Effect i s ((s.past i).jump (toCell t))
  | called {a s} (t : Value) (hroom : s.cfg.stackCapacity ≠ some s.stack.length) :
    Effect (.call a) s { s with pc := toCell t, stack := s.stack ++ [(s.past (.call a)).pc] }
  | returned {s below v} (h : s.stack = below ++ [v]) : Effect .ret s { s with pc := v, stack := below }
  | wrote {i s} (d : RegIdx) (w : Value) : Effect i s ((s.past i).setReg d w)
  | pushed {a s} (v : Value) (hroom : s.cfg.stackCapacity ≠ some s.stack.length) :
    Effect (.push a) s { s.past (.push a) with stack := s.stack ++ [toCell v] }
  | popped {a s below v} (d : RegIdx) (w : Value) (h : s.stack = below ++ [v]) :
    Effect (.pop a) s (State.setReg { s.past (.pop a) with stack := below } d w)
  | stored {a b s} (u v : Value) : Effect (.wmem a b) s ((s.past (.wmem a b)).memWrite u (toCell v))
  | output {a s} (v : Value) : Effect (.out a) s (outWrite v (s.past (.out a)))
  | waiting {s} (d : RegIdx) :
    Effect (.inp (.reg d)) s { s.past (.inp (.reg d)) with runState := .waitInput d false }

/-- What exec answers: the effect of a well-formed instruction inside memory, or the operand fault of another one. -/
def ExecOutcome (i : Instr) (s : State) : Prop :=
  (i.wf = true ∧ s.fits i.operands.length ∧ ∃ t, exec i s = .next t ∧ Effect i s t) ∨
    ∃ t, exec i s = .next t ∧ OperandFault i.opcode i.operands s t

/-- WriteReg at the end of an instruction with no other effect. -/
theorem Effect.writeReg {i : Instr} {s : State} (d : RegIdx) (v : Cell) :
    Effect i s (writeReg ⟨s.pc, i.opcode⟩ d v (s.past i) (s.past i)) := by
  obtain ⟨w, hw⟩ | ⟨hv, -, hraise⟩ := writeReg_cases ⟨s.pc, i.opcode⟩ d v (s.past i) (s.past i)
  · rw [hw]; exact .wrote d w
  · rw [hraise]; exact .raised (.registerValueOutOfRange d hv)

section Formats

variable {i : Instr} {s : State} {op : Cell}

theorem execOutcome_of_formatN {k : Current → State → State} (hoperands : i.operands = [])
    (hexec : exec i s = .next (formatN op s k)) (heffect : Effect i s (k ⟨s.pc, op⟩ (s.at 1))) (hpc : s.pc.toNat ≤ 32767) :
    ExecOutcome i s := by
  rw [formatN_eq] at hexec
  exact .inl ⟨Instr.wf_iff.2 (by simp [hoperands]), by rwa [hoperands], _, hexec, heffect⟩

theorem execOutcome_of_formatV {a : Operand} {k : Current → Value → State → State} (hop : i.opcode = op)
    (hoperands : i.operands = [(.val, a)]) (hexec : exec i s = .next (formatV op a s k))
    (heffect : ∀ u, Effect i s (k ⟨s.pc, op⟩ u (s.at 2))) (hpc : s.pc.toNat ≤ 32767) : ExecOutcome i s := by
  obtain ⟨u, hu, hfits, hk⟩ | ⟨t, ht, hk⟩ := formatV_cases (op := op) (a := a) hpc <;> rw [hk] at hexec
  · exact .inl ⟨Instr.wf_iff.2 (by simp [hoperands, legal_of_valueOf hu]), by rwa [hoperands], _, hexec, heffect u⟩
  · exact .inr ⟨_, hexec, by rwa [hop, hoperands]⟩

theorem execOutcome_of_formatR {d : Operand} {k : Current → RegIdx → State → State} (hop : i.opcode = op)
    (hoperands : i.operands = [(.dst, d)]) (hexec : exec i s = .next (formatR op d s k))
    (heffect : ∀ r, d = .reg r → Effect i s (k ⟨s.pc, op⟩ r (s.at 2))) (hpc : s.pc.toNat ≤ 32767) : ExecOutcome i s := by
  obtain ⟨r, hr, hfits, hk⟩ | ⟨t, ht, hk⟩ := formatR_cases (op := op) (d := d) hpc <;> rw [hk] at hexec
  · exact .inl ⟨Instr.wf_iff.2 (by simp [hoperands, hr]), by rwa [hoperands], _, hexec, heffect r hr⟩
  · exact .inr ⟨_, hexec, by rwa [hop, hoperands]⟩

theorem execOutcome_of_formatVV {a b : Operand} {k : Current → Value → Value → State → State} (hop : i.opcode = op)
    (hoperands : i.operands = [(.val, a), (.val, b)]) (hexec : exec i s = .next (formatVV op a b s k))
    (heffect : ∀ u v, Effect i s (k ⟨s.pc, op⟩ u v (s.at 3))) (hpc : s.pc.toNat ≤ 32767) : ExecOutcome i s := by
  obtain ⟨u, v, hu, hv, hfits, hk⟩ | ⟨t, ht, hk⟩ := formatVV_cases (op := op) (a := a) (b := b) hpc <;> rw [hk] at hexec
  · exact .inl ⟨Instr.wf_iff.2 (by simp [hoperands, legal_of_valueOf hu, legal_of_valueOf hv]), by rwa [hoperands], _,
      hexec, heffect u v⟩
  · exact .inr ⟨_, hexec, by rwa [hop, hoperands]⟩

theorem execOutcome_of_formatRV {d a : Operand} {k : Current → RegIdx → Value → State → State} (hop : i.opcode = op)
    (hoperands : i.operands = [(.dst, d), (.val, a)]) (hexec : exec i s = .next (formatRV op d a s k))
    (heffect : ∀ r u, Effect i s (k ⟨s.pc, op⟩ r u (s.at 3))) (hpc : s.pc.toNat ≤ 32767) : ExecOutcome i s := by
  obtain ⟨r, u, hr, hu, hfits, hk⟩ | ⟨t, ht, hk⟩ := formatRV_cases (op := op) (d := d) (a := a) hpc <;> rw [hk] at hexec
  · exact .inl ⟨Instr.wf_iff.2 (by simp [hoperands, hr, legal_of_valueOf hu]), by rwa [hoperands], _,
      hexec, heffect r u⟩
  · exact .inr ⟨_, hexec, by rwa [hop, hoperands]⟩

theorem execOutcome_of_formatRVV {d a b : Operand} {k : Current → RegIdx → Value → Value → State → State}
    (hop : i.opcode = op) (hoperands : i.operands = [(.dst, d), (.val, a), (.val, b)])
    (hexec : exec i s = .next (formatRVV op d a b s k)) (heffect : ∀ r u v, Effect i s (k ⟨s.pc, op⟩ r u v (s.at 4)))
    (hpc : s.pc.toNat ≤ 32767) : ExecOutcome i s := by
  obtain ⟨r, u, v, hr, hu, hv, hfits, hk⟩ | ⟨t, ht, hk⟩ := formatRVV_cases (op := op) (d := d) (a := a) (b := b) hpc <;>
    rw [hk] at hexec
  · exact .inl ⟨Instr.wf_iff.2 (by simp [hoperands, hr, legal_of_valueOf hu, legal_of_valueOf hv]),
      by rwa [hoperands], _, hexec, heffect r u v⟩
  · exact .inr ⟨_, hexec, by rwa [hop, hoperands]⟩

end Formats

theorem Effect.ret {s : State} : Effect .ret s ((popStack ⟨s.pc, 18⟩ (s.at 1)).andThen fun t s => s.jump t) := by
  obtain ⟨-, hpop⟩ | ⟨below, v, hstack, hpop⟩ := popStack_cases ⟨s.pc, 18⟩ (s.at 1) <;> rw [hpop]
  · exact .raised .stackUnderflow
  · exact .returned hstack

theorem Effect.call {a : Operand} {s : State} (t : Value) :
    Effect (.call a) s ((pushStack ⟨s.pc, 17⟩ (s.at 2).pc (s.at 2)).andThen fun _ s => s.jump (toCell t)) := by
  obtain ⟨-, hpush⟩ | ⟨hroom, hpush⟩ := pushStack_cases ⟨s.pc, 17⟩ (s.at 2).pc (s.at 2) <;> rw [hpush]
  · exact .raised .stackOverflow
  · exact .called t hroom

theorem Effect.push {a : Operand} {s : State} (v : Value) :
    Effect (.push a) s ((pushStack ⟨s.pc, 2⟩ (toCell v) (s.at 2)).andThen fun _ s => s) := by
  obtain ⟨-, hpush⟩ | ⟨hroom, hpush⟩ := pushStack_cases ⟨s.pc, 2⟩ (toCell v) (s.at 2) <;> rw [hpush]
  · exact .raised .stackOverflow
  · exact .pushed v hroom

theorem Effect.pop {a : Operand} {s : State} (d : RegIdx) :
    Effect (.pop a) s
      ((popStack ⟨s.pc, 3⟩ (s.at 2)).andThen fun v t => Machine.writeReg ⟨s.pc, 3⟩ d v (s.at 2) t) := by
  obtain ⟨-, hpop⟩ | ⟨below, v, hstack, hpop⟩ := popStack_cases ⟨s.pc, 3⟩ (s.at 2) <;> rw [hpop]
  · exact .raised .stackUnderflow
  · rw [Resolved.andThen_ok]
    obtain ⟨w, hw⟩ | ⟨hv, -, hraise⟩ := writeReg_cases ⟨s.pc, 3⟩ d v (s.at 2) { s.at 2 with stack := below }
    · rw [hw]; exact .popped d w hstack
    · rw [hraise]; exact .raised (.registerValueOutOfRange d hv)

/-- Everything an instruction at pc ≤ 32767 can do, by the format of each of the 22. -/
theorem execOutcome (i : Instr) {s : State} (hpc : s.pc.toNat ≤ 32767) : ExecOutcome i s := by
  cases i with
  | halt => exact execOutcome_of_formatN rfl rfl .halted hpc
  | noop => exact execOutcome_of_formatN rfl rfl .advanced hpc
  | ret => exact execOutcome_of_formatN rfl rfl .ret hpc
  | jmp a => exact execOutcome_of_formatV rfl rfl rfl .jumped hpc
  | call a => exact execOutcome_of_formatV rfl rfl (exec_call a s) .call hpc
  | push a => exact execOutcome_of_formatV rfl rfl (exec_push a s) .push hpc
  | out a => exact execOutcome_of_formatV rfl rfl (exec_out a s) .output hpc
  | pop d => exact execOutcome_of_formatR rfl rfl (exec_pop d s) (fun r _ => .pop r) hpc
  | inp d => exact execOutcome_of_formatR rfl rfl (exec_inp d s) (fun r hr => hr ▸ .waiting r) hpc
  | jt a b =>
    refine execOutcome_of_formatVV rfl rfl (exec_jt a b s) (fun c t => ?_) hpc
    split
    · exact .jumped t
    · exact .advanced
  | jf a b =>
    refine execOutcome_of_formatVV rfl rfl (exec_jf a b s) (fun c t => ?_) hpc
    split
    · exact .jumped t
    · exact .advanced
  | wmem a b => exact execOutcome_of_formatVV rfl rfl (exec_wmem a b s) .stored hpc
  | set d a | rmem d a | not d a => exact execOutcome_of_formatRV rfl rfl rfl (fun r u => .writeReg r _) hpc
  | eq d a b | gt d a b | add d a b | mult d a b | and d a b | or d a b =>
    exact execOutcome_of_formatRVV rfl rfl rfl (fun r u v => .writeReg r _) hpc
  | mod d a b =>
    refine execOutcome_of_formatRVV rfl rfl (exec_mod d a b s) (fun r u v => ?_) hpc
    split
    · exact .raised .divideByZero
    · exact .wrote r _

/-- The same of a given next state. -/
theorem exec_cases {i : Instr} {s t : State} (hpc : s.pc.toNat ≤ 32767) (h : exec i s = .next t) :
    (s.fits i.operands.length ∧ Effect i s t) ∨ OperandFault i.opcode i.operands s t := by
  obtain ⟨-, hfits, t', hexec, heffect⟩ | ⟨t', hexec, hfault⟩ := execOutcome i hpc
  · cases h.symm.trans hexec
    exact .inl ⟨hfits, heffect⟩
  · cases h.symm.trans hexec
    exact .inr hfault

end Sys2Proof.Machine
end

section
/-! PROOFS. The steps of a waiting core (44_io.md, the rule of `in`; 70_reset_and_hazards.md section 4). -/

namespace Sys2Proof.Machine

/-- A waiting core's step is the input step. -/
theorem step_of_waitInput {s : State} {d : RegIdx} (h : s.runState = .waitInput d false) : step s = .next (inputStep d s) := by
  simp [step, h, waitStep]

/-- After EOF under `block` the core answers itself (44_io.md R165). -/
theorem step_of_eofTaken {s : State} {d : RegIdx} (h : s.runState = .waitInput d true) : step s = .next s := by
  simp [step, h, waitStep]

/-- The state after `InTake` of the event e (44_io.md R163): e is in the trace, and the rest of the events are offered. -/
def State.took (s : State) (e : InEvent) (rest : List InEvent) : State := { s with input := rest, io := s.io ++ [.took e] }

/-! ### The input step, by the event offered first -/

section Events

variable {s : State} {rest : List InEvent} (d : RegIdx)

theorem inputStep_nil (h : s.input = []) : inputStep d s = s := by
  simp only [inputStep, h]

theorem inputStep_carriageReturn (h : s.input = .value 13 :: rest) :
    inputStep d s = s.took (.value 13) rest := by
  simp only [inputStep, h, acceptInput, if_pos, State.took]

theorem inputStep_value {v : Cell} (h : s.input = .value v :: rest) (hv : v ≠ 13) :
    inputStep d s = writeReg ⟨s.pc - 2, 20⟩ d v (s.took (.value v) rest)
      { s.took (.value v) rest with runState := .running } := by
  simp only [inputStep, h, acceptInput, if_neg hv, waitingIn, State.took]

theorem inputStep_eof_fault (h : s.input = .eof :: rest) (hp : s.cfg.inEofPolicy = .fault) :
    inputStep d s = { s.took .eof rest with
      runState := .faulted, fault := ⟨.inputExhausted, s.pc - 2, s.pc - 1, 20, 0, 0⟩ } := by
  simp only [inputStep, h, acceptInput, hp, waitingIn, State.lastCell, raise, State.took]

theorem inputStep_eof_block (h : s.input = .eof :: rest) (hp : s.cfg.inEofPolicy = .block) :
    inputStep d s = { s.took .eof rest with runState := .waitInput d true } := by
  simp only [inputStep, h, acceptInput, hp, State.took]

/-- A value but 13 that WriteReg stores (10_state.md R25): it is in register d, modulo 32768, and the core goes on. -/
theorem inputStep_stored {v : Cell} (h : s.input = .value v :: rest) (hv : v ≠ 13)
    (hstored : v.toNat ≤ 32767 ∨ s.cfg.highWritePolicy = .mask15) :
    inputStep d s = { s.took (.value v) rest with
      runState := .running, x := s.x.set d.val (BitVec.ofNat 15 (v.toNat % 32768)) d.isLt } := by
  rw [inputStep_value d h hv, writeReg_stored (s := { s.took (.value v) rest with runState := .running }) hstored]
  rfl

/-- A value that WriteReg does not store (60_exceptions.md R186): the event stays taken. -/
theorem inputStep_outOfRange {v : Cell} (h : s.input = .value v :: rest) (hv : v ≠ 13) (hhigh : 32767 < v.toNat)
    (hp : s.cfg.highWritePolicy = .fault) :
    inputStep d s = { s.took (.value v) rest with
      runState := .faulted, fault := ⟨.registerValueOutOfRange, s.pc - 2, s.pc - 1, 20, v, d⟩ } := by
  rw [inputStep_value d h hv, writeReg_fault (s := { s.took (.value v) rest with runState := .running }) hhigh hp]
  rfl

end Events

/-- Settles O44: the input step of a value, stored or out of range. -/
theorem acceptedInputIsWritten : Obligations.AcceptedInputIsWritten := by
  intro s d v rest hwait hinput hv
  rw [step_of_waitInput hwait]
  exact ⟨fun hstored => congrArg _ (inputStep_stored d hinput hv hstored),
    fun hhigh hp => congrArg _ (inputStep_outOfRange d hinput hv hhigh hp)⟩

/-- Settles O45, by induction on the number of carriage returns: a step takes the first of them and leaves a waiting core with one
less, and, with none left, the value is stored. -/
theorem inSkipsCarriageReturns : Obligations.InSkipsCarriageReturns := by
  intro n s d v rest hwait hv hrange hinput
  induction n generalizing s with
  | zero =>
    have hstep : step s = _ := (step_of_waitInput hwait).trans (congrArg _ (inputStep_stored d hinput hv (.inl hrange)))
    rw [runSteps_succ 0 hstep, runSteps_zero, Nat.mod_eq_of_lt (by omega)]
    simp [State.took]
  | succ n ih =>
    rw [List.replicate_succ, List.cons_append] at hinput
    have hstep : step s = _ := (step_of_waitInput hwait).trans (congrArg _ (inputStep_carriageReturn d hinput))
    rw [runSteps_succ (n + 1) hstep, ih (s := s.took (.value 13) _) hwait rfl]
    simp [State.took, List.replicate_succ]

/-- Settles O46: EOF raises, or sets the bit under which every later step answers the same state. -/
theorem endOfInputFollowsEofPolicy : Obligations.EndOfInputFollowsEofPolicy := by
  intro s d rest hwait hinput
  rw [step_of_waitInput hwait]
  refine ⟨fun hp => congrArg _ (inputStep_eof_fault d hinput hp), fun hp => ⟨_, rfl, ?_⟩⟩
  rw [inputStep_eof_block d hinput hp]
  exact ⟨⟨true, rfl⟩, rfl, fun offers n => runSteps_of_fixed n (step_of_eofTaken rfl)⟩

/-! ### Enabled steps -/

/-- The fault kinds an input step can raise, with what the record then holds in `raw` and `reg` (60_exceptions.md R186, R187). -/
inductive InputFault : FaultKind → Cell → RegIdx → Prop
  | inputExhausted : InputFault .inputExhausted 0 0
  | registerValueOutOfRange {v : Cell} (d : RegIdx) (h : 32767 < v.toNat) : InputFault .registerValueOutOfRange v d

/-- What an input step that takes event e leaves: only e is taken, and it is in the trace; the core stays in its wait with nothing
else changed, or stores a value but 13 and goes on, or faults in the name of the `in` that waits. -/
inductive InputEffect (d : RegIdx) (e : InEvent) (rest : List InEvent) (s : State) : State → Prop
  | waits (eofTaken : Bool) {r : RunState} (hr : r = .waitInput d eofTaken)
    (heof : eofTaken = true → s.cfg.inEofPolicy = .block) :
    InputEffect d e rest s { s.took e rest with runState := r }
  | stores (v : Cell) (he : e = .value v) (hv : v ≠ 13) : InputEffect d e rest s { s.took e rest with
      runState := .running, x := s.x.set d.val (BitVec.ofNat 15 (v.toNat % 32768)) d.isLt }
  | raises {kind : FaultKind} {raw : Cell} {reg : RegIdx} (h : InputFault kind raw reg) :
    InputEffect d e rest s { s.took e rest with
      runState := .faulted, fault := ⟨kind, s.pc - 2, s.pc - 1, 20, raw, reg⟩ }

/-- Everything a waiting core with an event offered can do. -/
theorem inputEffect_of_waitInput {s : State} {d : RegIdx} {e : InEvent} {rest : List InEvent}
    (hwait : s.runState = .waitInput d false) (h : s.input = e :: rest) : InputEffect d e rest s (inputStep d s) := by
  cases e with
  | eof =>
    cases hp : s.cfg.inEofPolicy with
    | fault => rw [inputStep_eof_fault d h hp]; exact .raises .inputExhausted
    | block => rw [inputStep_eof_block d h hp]; exact .waits true rfl fun _ => hp
  | value v =>
    by_cases hv : v = 13
    · subst hv
      rw [inputStep_carriageReturn d h]
      exact .waits false hwait nofun
    · by_cases hstored : v.toNat ≤ 32767 ∨ s.cfg.highWritePolicy = .mask15
      · rw [inputStep_stored d h hv hstored]
        exact .stores v rfl hv
      · obtain ⟨hhigh, hmask⟩ := not_or.1 hstored
        have hp : s.cfg.highWritePolicy = .fault := by
          cases hp : s.cfg.highWritePolicy with
          | fault => rfl
          | mask15 => exact absurd hp hmask
        rw [inputStep_outOfRange d h hv (Nat.not_le.1 hhigh) hp]
        exact .raises (.registerValueOutOfRange d (Nat.not_le.1 hhigh))

/-- Where a core has no enabled step (70_reset_and_hazards.md R219, R220), it answers itself. -/
theorem step_of_hasStep_eq_false {s : State} (h : s.hasStep = false) : step s = .next s := by
  cases hrun : s.runState with
  | running => simp [State.hasStep, hrun] at h
  | halted => exact step_of_halted hrun
  | faulted => exact step_of_faulted hrun
  | waitInput d eofTaken =>
    cases eofTaken with
    | true => exact step_of_eofTaken hrun
    | false =>
      have hnone : s.input = [] := by simpa [State.hasStep, hrun] using h
      rw [step_of_waitInput hrun, inputStep_nil d hnone]

/-- An enabled step out of Running is one of a waiting core with an event offered. -/
theorem waits_of_hasStep {s : State} (h : s.hasStep = true) (hrun : s.runState ≠ .running) :
    ∃ d e rest, s.runState = .waitInput d false ∧ s.input = e :: rest := by
  cases hr : s.runState with
  | running => exact absurd hr hrun
  | halted | faulted => simp [State.hasStep, hr] at h
  | waitInput d eofTaken =>
    cases hi : s.input with
    | nil => simp [State.hasStep, hr, hi] at h
    | cons e rest =>
      have hasked : eofTaken = false := by simpa [State.hasStep, hr, hi] using h
      exact ⟨d, e, rest, by rw [hasked], rfl⟩

/-- Settles O47: a step that is not enabled by `step_of_hasStep_eq_false`, an enabled one by the three forms of `InputEffect`. -/
theorem onlyEnabledStepsChangeState : Obligations.OnlyEnabledStepsChangeState := by
  intro s
  refine ⟨step_of_hasStep_eq_false, fun hstep hrun => ?takes, fun d rest hwait hinput => ?carriageReturn⟩
  case takes =>
    obtain ⟨d, e, rest, hwait, hinput⟩ := waits_of_hasStep hstep hrun
    have heffect := inputEffect_of_waitInput hwait hinput
    refine ⟨e, _, step_of_waitInput hwait, ?_⟩
    generalize inputStep d s = t at heffect
    cases heffect with
    | waits eofTaken hr heof => exact ⟨hinput, rfl, rfl, rfl, rfl, fun _ _ _ => rfl⟩
    | stores v he hv => exact ⟨hinput, rfl, rfl, rfl, rfl, nofun⟩
    | raises h => exact ⟨hinput, rfl, rfl, rfl, rfl, nofun⟩
  case carriageReturn => rw [step_of_waitInput hwait, inputStep_carriageReturn d hinput]; rfl

end Sys2Proof.Machine
end

section
/-! PROOFS. Operands decode before anything else, and every step keeps the invariant (30_encoding.md section 5; 10_state.md
sections 3 to 5). -/

namespace Sys2Proof.Machine

/-! ### Operands before execution -/

/-- An instruction whose operands decode leaves the fault record, or fills it with an execute-time fault. -/
theorem Effect.fault {i : Instr} {s t : State} (h : Effect i s t) :
    t.fault = s.fault ∨ ∃ raw reg, ExecuteFault t.fault.kind raw reg := by
  cases h with
  | raised h => exact .inr ⟨_, _, h⟩
  | advanced | halted | jumped | called | returned | wrote | pushed | popped | stored | output | waiting => exact .inl rfl

/-- No execute-time fault has the kind of an operand fault. -/
theorem ExecuteFault.not_operandFault {kind : FaultKind} {raw : Cell} {reg : RegIdx} (h : ExecuteFault kind raw reg) :
    kind ∉ [.invalidOperand, .addressOutOfRange] := by
  cases h <;> decide

/-- Settles O17: `execOutcome` tells the two cases apart, and an instruction with an operand fault is not one whose operands are
all legal and inside memory. -/
theorem operandsDecodeBeforeExecution : Obligations.OperandsDecodeBeforeExecution := by
  intro i s hpc
  obtain ⟨hwf, hfits, t, hexec, heffect⟩ | ⟨t, hexec, hfault⟩ := execOutcome i hpc
  · refine .inl ⟨hwf, hfits, t, hexec, heffect.fault.imp_right ?_⟩
    rintro ⟨raw, reg, h⟩
    exact h.not_operandFault
  · exact .inr ⟨fun ⟨hwf, hfits⟩ => hfault.absent ⟨Instr.wf_iff.1 hwf, hfits⟩, t, hfault, hexec⟩

/-! ### Fault records -/

/-- The fault kinds whose record has neither `raw` nor `reg` (10_state.md R40). -/
theorem FaultRecord.consistent_plain {kind : FaultKind} {ipc addr op : Cell}
    (hkind : kind ∉ [.invalidOpcode, .registerValueOutOfRange]) (hipc : ipc.toNat ≤ 32768) (haddr : addr.toNat ≤ 32768)
    (hend : kind = .addressOutOfRange → addr.toNat = 32768) : (FaultRecord.mk kind ipc addr op 0 0).Consistent where
  reg _ := rfl
  raw _ _ _ := rfl
  opcode h := absurd (by simp [show kind = .invalidOpcode from h]) hkind
  value h := absurd (by simp [show kind = .registerValueOutOfRange from h]) hkind
  ipc := hipc
  addr := haddr
  pastEnd := hend

theorem FaultRecord.consistent_invalidOperand {ipc addr op raw : Cell} (hipc : ipc.toNat ≤ 32768)
    (haddr : addr.toNat ≤ 32768) : (FaultRecord.mk .invalidOperand ipc addr op raw 0).Consistent where
  reg _ := rfl
  raw _ h _ := absurd rfl h
  opcode := nofun
  value := nofun
  ipc := hipc
  addr := haddr
  pastEnd := nofun

theorem FaultRecord.consistent_invalidOpcode {pc raw : Cell} (hpc : pc.toNat ≤ 32768) (hraw : 21 < raw.toNat) :
    (FaultRecord.mk .invalidOpcode pc pc raw raw 0).Consistent where
  reg _ := rfl
  raw h := absurd rfl h
  opcode _ := ⟨rfl, hraw, rfl⟩
  value := nofun
  ipc := hpc
  addr := hpc
  pastEnd := nofun

theorem FaultRecord.consistent_registerValue {ipc addr op raw : Cell} {reg : RegIdx} (hipc : ipc.toNat ≤ 32768)
    (haddr : addr.toNat ≤ 32768) (hraw : 32767 < raw.toNat) :
    (FaultRecord.mk .registerValueOutOfRange ipc addr op raw reg).Consistent where
  reg h := absurd rfl h
  raw _ _ h := absurd rfl h
  opcode := nofun
  value _ := hraw
  ipc := hipc
  addr := haddr
  pastEnd := nofun

theorem ExecuteFault.consistent {kind : FaultKind} {ipc addr op raw : Cell} {reg : RegIdx} (h : ExecuteFault kind raw reg)
    (hipc : ipc.toNat ≤ 32768) (haddr : addr.toNat ≤ 32768) : (FaultRecord.mk kind ipc addr op raw reg).Consistent := by
  cases h with
  | stackOverflow | stackUnderflow | divideByZero =>
    exact FaultRecord.consistent_plain (by decide) hipc haddr nofun
  | registerValueOutOfRange d hv => exact FaultRecord.consistent_registerValue hipc haddr hv

theorem ExecuteFault.kind_ne_none {kind : FaultKind} {raw : Cell} {reg : RegIdx} (h : ExecuteFault kind raw reg) :
    kind ≠ .none := by
  cases h <;> decide

/-! ### What the parts of a step do to the invariant -/

section Parts

variable {s : State} (hs : s.Inv)
include hs

/-- A new pc in range keeps the invariant out of WaitInput, and in it where an instruction of two cells stands before pc. -/
theorem State.Inv.withPc {pc : Cell} (hpc : pc.toNat ≤ 32768)
    (hwait : ∀ d e, s.runState = .waitInput d e → 2 ≤ pc.toNat) : State.Inv { s with pc := pc } :=
  { hs with pc := hpc, waitPc := hwait }

theorem State.Inv.setReg (d : RegIdx) (w : Value) : (s.setReg d w).Inv := { hs with }

theorem State.Inv.memWrite (a : Value) (v : Cell) : (s.memWrite a v).Inv := { hs with mem := State.memWrite_wf a v hs.mem }

theorem State.Inv.withStreams (input : List InEvent) (io : List IoEvent) : State.Inv { s with input := input, io := io } :=
  { hs with }

/-- Push of an address keeps the stack's range and, as it has room, its capacity (10_state.md R31, R33). -/
theorem State.Inv.pushed {v : Cell} (hv : v.toNat ≤ 32768) (hroom : s.cfg.stackCapacity ≠ some s.stack.length) :
    State.Inv { s with stack := s.stack ++ [v] } :=
  { hs with
    stack := List.forall_mem_append.2 ⟨hs.stack, List.forall_mem_singleton.2 hv⟩
    capacity := fun n hn => by
      have hlength := hs.capacity n hn
      have hne : n ≠ s.stack.length := fun h => hroom (h ▸ hn)
      simp only [List.length_append, List.length_singleton]
      omega }

theorem State.Inv.popped {below : List Cell} {v : Cell} (h : s.stack = below ++ [v]) :
    State.Inv { s with stack := below } :=
  { hs with
    stack := fun e he => hs.stack e (by simp [h, he])
    capacity := fun n hn => by
      have hlength := hs.capacity n hn
      simp only [h, List.length_append] at hlength
      exact Nat.le_of_add_right_le hlength }

/-- A raise whose record agrees with its kind (60_exceptions.md R190). -/
theorem State.Inv.raised {pc : Cell} {f : FaultRecord} (hpc : pc.toNat ≤ 32768) (hkind : f.kind ≠ .none)
    (hfields : f.Consistent) : State.Inv { s with pc := pc, runState := .faulted, fault := f } :=
  { hs with
    pc := hpc, noFault := fun h => absurd rfl h, faultKind := fun _ => hkind, faultFields := hfields, waitPc := nofun
    waitEof := nofun }

/-- A core that is not Faulted may stop, go on or wait. -/
theorem State.Inv.withRunState {r : RunState} (hrun : s.runState ≠ .faulted) (hr : r ≠ .faulted)
    (hwait : ∀ d e, r = .waitInput d e → 2 ≤ s.pc.toNat)
    (heof : ∀ d, r = .waitInput d true → s.cfg.inEofPolicy = .block) : State.Inv { s with runState := r } :=
  { hs with noFault := fun _ => hs.noFault hrun, faultKind := fun h => absurd h hr, waitPc := hwait, waitEof := heof }

end Parts

/-! ### The invariant over an instruction -/

/-- pc past an instruction whose cells stand in memory. -/
theorem State.past_pc_toNat {s : State} {i : Instr} (hfits : s.fits i.operands.length) :
    (s.past i).pc.toNat = s.pc.toNat + i.operands.length + 1 := by
  simp only [State.fits] at hfits
  exact State.at_pc_toNat (by omega)

theorem State.past_lastCell_toNat {s : State} {i : Instr} (hfits : s.fits i.operands.length) :
    (s.past i).lastCell.toNat = s.pc.toNat + i.operands.length := by
  simp only [State.fits] at hfits
  rw [State.past, State.at_lastCell, ← State.at_pc, State.at_pc_toNat (by omega)]

/-- The effect of an instruction of a Running core keeps the invariant. -/
theorem Effect.inv {i : Instr} {s t : State} (h : Effect i s t) (hs : s.Inv) (hrun : s.runState = .running)
    (hfits : s.fits i.operands.length) : t.Inv := by
  have hto := State.past_pc_toNat hfits
  have hinside : s.pc.toNat + i.operands.length ≤ 32767 := hfits
  have hnowait : ∀ pc : Cell, ∀ d e, s.runState = .waitInput d e → 2 ≤ pc.toNat := by simp [hrun]
  have hvalue : ∀ v : Value, (toCell v).toNat ≤ 32768 := fun v => by rw [toNat_toCell]; omega
  have hpast : (s.past i).Inv := hs.withPc (by rw [← State.at_pc, ← State.past, hto]; omega) (hnowait _)
  have hrun' : s.runState ≠ .faulted := by simp [hrun]
  cases h with
  | raised hfault =>
    have hlast := State.past_lastCell_toNat hfits
    exact hpast.raised hpast.pc hfault.kind_ne_none (hfault.consistent hs.pc (by omega))
  | advanced => exact hpast
  | halted => exact hpast.withRunState hrun' (by decide) nofun nofun
  | jumped t => exact hpast.withPc (hvalue t) (hnowait _)
  | called t hroom => exact (hs.pushed hpast.pc hroom).withPc (hvalue t) (hnowait _)
  | returned hstack => exact (hs.popped hstack).withPc (hs.stack _ (by simp [hstack])) (hnowait _)
  | wrote d w => exact hpast.setReg d w
  | pushed v hroom => exact hpast.pushed (hvalue v) hroom
  | popped d w hstack => exact (hpast.popped hstack).setReg d w
  | stored u v => exact hpast.memWrite u _
  | output v => exact hpast.withStreams _ _
  | waiting d =>
    have htwo : 2 ≤ (s.past (.inp (.reg d))).pc.toNat := by rw [hto]; simp only [Instr.operands, List.length_singleton]; omega
    exact hpast.withRunState hrun' nofun (fun _ _ _ => htwo) nofun

/-- An operand fault keeps the invariant (60_exceptions.md R182, R184). -/
theorem OperandFault.inv {op : Cell} {ops : List (Role × Operand)} {s t : State} (h : OperandFault op ops s t) (hs : s.Inv) :
    t.Inv := by
  obtain ⟨k, role, o, -, -, ⟨-, rfl⟩ | ⟨hk, -, rfl⟩⟩ := h
  · exact hs.raised (by decide) nofun (FaultRecord.consistent_plain (by decide) hs.pc (by decide) fun _ => rfl)
  · have hpc : ∀ n, n ≤ k + 2 → (s.pc + BitVec.ofNat 16 n).toNat ≤ 32768 := fun n hn => by
      rw [← State.at_pc, State.at_pc_toNat (by omega)]
      omega
    exact hs.raised (hpc _ le_rfl) nofun (FaultRecord.consistent_invalidOperand hs.pc (hpc _ (by omega)))

/-- A fetch that raises keeps the invariant (60_exceptions.md R181, R184). -/
theorem inv_of_fetchInstr_error {s t : State} (hs : s.Inv) (h : fetchInstr s = .error t) : t.Inv := by
  have hpc := hs.pc
  obtain ⟨hpast, hfetch⟩ | ⟨-, -, i, -, -, -, hfetch⟩ | ⟨hin, hop, hfetch⟩ := fetchInstr_cases s <;>
    rw [hfetch] at h <;> cases h
  · exact hs.raised hpc nofun (FaultRecord.consistent_plain (by decide) hpc hpc fun _ => Nat.le_antisymm hpc hpast)
  · refine hs.raised ?_ nofun (FaultRecord.consistent_invalidOpcode hpc hop)
    rw [State.advance_eq_at, State.at_pc_toNat (by omega)]
    omega

/-! ### The invariant over an input step -/

theorem InputFault.kind_ne_none {kind : FaultKind} {raw : Cell} {reg : RegIdx} (h : InputFault kind raw reg) :
    kind ≠ .none := by
  cases h <;> decide

theorem InputFault.consistent {kind : FaultKind} {ipc addr op raw : Cell} {reg : RegIdx} (h : InputFault kind raw reg)
    (hipc : ipc.toNat ≤ 32768) (haddr : addr.toNat ≤ 32768) : (FaultRecord.mk kind ipc addr op raw reg).Consistent := by
  cases h with
  | inputExhausted => exact FaultRecord.consistent_plain (by decide) hipc haddr nofun
  | registerValueOutOfRange d hv => exact FaultRecord.consistent_registerValue hipc haddr hv

/-- Taking an input event keeps the invariant; the `in` that waits stands before pc (44_io.md R161, R164, R165). -/
theorem InputEffect.inv {d : RegIdx} {e : InEvent} {rest : List InEvent} {s t : State} (h : InputEffect d e rest s t)
    (hs : s.Inv) (hwait : s.runState = .waitInput d false) : t.Inv := by
  have htwo := hs.waitPc d false hwait
  have hpc := hs.pc
  have hrun : s.runState ≠ .faulted := by simp [hwait]
  have htaken : (s.took e rest).Inv := hs.withStreams _ _
  cases h with
  | waits eofTaken hr heof =>
    subst hr
    exact htaken.withRunState hrun nofun (fun _ _ _ => htwo) fun _ h => heof (by cases h; rfl)
  | stores v he hv => exact (htaken.withRunState (r := .running) hrun nofun nofun nofun).setReg d _
  | raises hfault =>
    exact htaken.raised hpc hfault.kind_ne_none (hfault.consistent (by bv_omega) (by bv_omega))

/-- An input step keeps the invariant. -/
theorem inv_inputStep {s : State} {d : RegIdx} (hs : s.Inv) (hwait : s.runState = .waitInput d false) :
    (inputStep d s).Inv := by
  cases hinput : s.input with
  | nil => rwa [inputStep_nil d hinput]
  | cons e rest => exact (inputEffect_of_waitInput hwait hinput).inv hs hwait

/-- Settles O4: a step runs an instruction, whose outcome is an effect or an operand fault, or raises at the fetch, or takes an
input event, or changes nothing; each keeps the invariant. -/
theorem stepKeepsTheInvariant : Obligations.StepKeepsTheInvariant := by
  intro s t hs h
  obtain ⟨hrun, hpc, i, -, hexec⟩ | ⟨-, hfetch⟩ | ⟨d, -, rfl⟩ | ⟨d, hwait, rfl⟩ | ⟨-, rfl⟩ := step_cases h
  · obtain ⟨hfits, heffect⟩ | hfault := exec_cases hpc hexec
    · exact heffect.inv hs hrun hfits
    · exact hfault.inv hs
  · exact inv_of_fetchInstr_error hs hfetch
  · exact hs
  · exact inv_inputStep hs hwait
  · exact hs

end Sys2Proof.Machine
end

section
/-! PROOFS. The whole-machine rules: what no instruction and no step changes, the moves of run_state, precise faults
(10_state.md, 20_memory.md section 1, 60_exceptions.md section 2). -/

namespace Sys2Proof.Machine

/-! ### What one instruction changes -/

/-- An instruction changes at most one cell, and then it is a wmem that stores a value there (20_memory.md section 1). -/
theorem exec_memRead {i : Instr} {s t : State} (h : exec i s = .next t) (a : Value) :
    t.memRead a = s.memRead a ∨
      ∃ addr src v, i = .wmem addr src ∧ valueOf s addr = some a ∧ t.memRead a = toCell v := by
  apply exec_elim (i := i) (h := h)
  case wm =>
    intro addr src u v pc hu hv
    have hread := State.memRead_memWrite { s with pc := pc } u a (toCell v)
    by_cases hua : u = a
    · exact .inr ⟨addr, src, v, rfl, hua ▸ hu, by rwa [if_pos hua] at hread⟩
    · exact .inl (by rwa [if_neg hua] at hread)
  all_goals intros; exact .inl rfl

/-- An instruction writes no register but its destination (10_state.md section 2). -/
theorem exec_reg {i : Instr} {s t : State} (h : exec i s = .next t) (r : RegIdx) :
    t.reg r = s.reg r ∨ (i.operands.head? = some (.dst, .reg r) ∧ ∀ dst, i ≠ .inp dst) := by
  have hset : ∀ (d : RegIdx) (w : Value), d ≠ r → (s.setReg d w).reg r = s.reg r := fun d w hd => by
    rw [State.reg_setReg, if_neg hd]
  apply exec_elim (i := i) (h := h)
  case wr =>
    intro i d w pc hhead hinp
    by_cases hd : d = r
    · exact .inr ⟨hd ▸ hhead, hinp⟩
    · exact .inl (hset d w hd)
  case popw =>
    intro d w pc below v hstack
    by_cases hd : d = r
    · exact .inr ⟨by rw [hd]; rfl, nofun⟩
    · exact .inl (hset d w hd)
  all_goals intros; exact .inl rfl

/-- An instruction touches the stack by one entry at the top, push and call adding it, pop and ret removing it (10_state.md
section 4). -/
theorem exec_stack {i : Instr} {s t : State} (h : exec i s = .next t) :
    t.stack = s.stack ∨
      ((∃ src, i = .push src) ∨ (∃ addr, i = .call addr)) ∧ (∃ v, t.stack = s.stack ++ [v]) ∨
      ((∃ dst, i = .pop dst) ∨ i = .ret) ∧ (∃ v, s.stack = t.stack ++ [v]) := by
  apply exec_elim (i := i) (h := h)
  case push => intro i pc v hi; exact .inr (.inl ⟨hi, v, rfl⟩)
  case popw => intro d w pc below v hstack; exact .inr (.inr ⟨.inl ⟨_, rfl⟩, v, hstack⟩)
  case retp => intro pc below v hstack; exact .inr (.inr ⟨.inr rfl, v, hstack⟩)
  all_goals intros; exact .inl rfl

/-- An instruction takes no event, and outputs nothing but the value of an out (44_io.md, port behaviour). -/
theorem exec_streams {i : Instr} {s t : State} (h : exec i s = .next t) :
    t.input = s.input ∧
      (t.io = s.io ∨ ∃ ch v, i = .out ch ∧ valueOf s ch = some v ∧ t.io = s.io ++ [.out v]) := by
  apply exec_elim (i := i) (h := h)
  case out => intro ch v pc hv; exact ⟨rfl, .inr ⟨ch, v, rfl, hv, rfl⟩⟩
  all_goals intros; exact ⟨rfl, .inl rfl⟩

/-- No instruction changes the parameters (00_scope.md section 4). -/
theorem exec_cfg {i : Instr} {s t : State} (h : exec i s = .next t) : t.cfg = s.cfg := by
  apply exec_elim (i := i) (h := h)
  all_goals intros; rfl

/-- The moves of run_state that an instruction can make (10_state.md R37). -/
theorem exec_runState {i : Instr} {s t : State} (h : exec i s = .next t) :
    t.runState = s.runState ∨ t.runState = .faulted ∨ (t.runState = .halted ∧ i = .halt) ∨
      ∃ d, t.runState = .waitInput d false ∧ i = .inp (.reg d) := by
  apply exec_elim (i := i) (h := h)
  case faulted => intros; exact .inr (.inl rfl)
  case halt => intro pc; exact .inr (.inr (.inl ⟨rfl, rfl⟩))
  case inp => intro d pc; exact .inr (.inr (.inr ⟨d, rfl, rfl⟩))
  all_goals intros; exact .inl rfl

/-! ### Precise raises in Running -/

/-- t is s with a fault raised that names ipc = the old pc: nothing but pc, run state and fault record changed (60_exceptions.md
R190). -/
def Raised (s t : State) : Prop :=
  ∃ pc f, f.ipc = s.pc ∧ t = { s with pc := pc, runState := .faulted, fault := f }

theorem raised_of_fetchInstr_error {s t : State} (h : fetchInstr s = .error t) : Raised s t := by
  obtain ⟨-, hfetch⟩ | ⟨-, -, i, -, -, -, hfetch⟩ | ⟨-, -, hfetch⟩ := fetchInstr_cases s <;> rw [hfetch] at h <;> cases h
  · exact ⟨_, _, rfl, rfl⟩
  · exact ⟨_, _, rfl, rfl⟩

theorem OperandFault.raised {op : Cell} {ops : List (Role × Operand)} {s t : State} (h : OperandFault op ops s t) :
    Raised s t := by
  obtain ⟨k, role, o, -, -, ⟨-, rfl⟩ | ⟨-, -, rfl⟩⟩ := h
  · exact ⟨_, _, rfl, rfl⟩
  · exact ⟨_, _, rfl, rfl⟩

/-- The one effect of a Running core that enters Faulted is the raise. -/
theorem Effect.raised_of_faulted {i : Instr} {s t : State} (h : Effect i s t) (hrun : s.runState = .running)
    (hfault : t.runState = .faulted) : Raised s t := by
  cases h with
  | raised h => exact ⟨_, _, rfl, rfl⟩
  | halted | waiting => cases hfault
  | advanced | jumped | called | returned | wrote | pushed | popped | stored | output =>
    exact absurd (hrun.symm.trans hfault) nofun

/-- A Running core that enters Faulted has raised, and done nothing else (60_exceptions.md R191). -/
theorem raised_of_step {s t : State} (h : step s = .next t) (hrun : s.runState = .running) (hfault : t.runState = .faulted) :
    Raised s t := by
  obtain ⟨-, hpc, i, -, hexec⟩ | ⟨-, hfetch⟩ | ⟨d, hwait, -⟩ | ⟨d, hwait, -⟩ | ⟨hstop, -⟩ := step_cases h
  · obtain ⟨-, heffect⟩ | hoperand := exec_cases hpc hexec
    · exact heffect.raised_of_faulted hrun hfault
    · exact hoperand.raised
  · exact raised_of_fetchInstr_error hfetch
  · simp [hrun] at hwait
  · simp [hrun] at hwait
  · simp [hrun] at hstop

/-! ### What one step changes -/

/-- Everything a step can do, with what each part leaves unchanged at hand: an instruction, a raise at the fetch, an input event, or
nothing. -/
theorem step_kinds {s t : State} (h : step s = .next t) :
    (s.runState = .running ∧ ∃ i, fetchInstr s = .ok i ∧ exec i s = .next t) ∨
    (s.runState = .running ∧ Raised s t) ∨
    (∃ d e rest, s.runState = .waitInput d false ∧ s.input = e :: rest ∧ InputEffect d e rest s t) ∨
    (s.runState ≠ .running ∧ t = s) := by
  obtain ⟨hrun, -, i, hfetch, hexec⟩ | ⟨hrun, hfetch⟩ | ⟨d, hwait, rfl⟩ | ⟨d, hwait, rfl⟩ | ⟨hstop, rfl⟩ := step_cases h
  · exact .inl ⟨hrun, i, hfetch, hexec⟩
  · exact .inr (.inl ⟨hrun, raised_of_fetchInstr_error hfetch⟩)
  · exact .inr (.inr (.inr ⟨by simp [hwait], rfl⟩))
  · cases hinput : s.input with
    | nil => exact .inr (.inr (.inr ⟨by simp [hwait], inputStep_nil d hinput⟩))
    | cons e rest => exact .inr (.inr (.inl ⟨d, e, rest, hwait, rfl, inputEffect_of_waitInput hwait hinput⟩))
  · exact .inr (.inr (.inr ⟨by rintro hrun; simp [hrun] at hstop, rfl⟩))

theorem InputEffect.mem {d : RegIdx} {e : InEvent} {rest : List InEvent} {s t : State} (h : InputEffect d e rest s t) :
    t.mem = s.mem := by
  cases h <;> rfl

theorem InputEffect.cfg {d : RegIdx} {e : InEvent} {rest : List InEvent} {s t : State} (h : InputEffect d e rest s t) :
    t.cfg = s.cfg := by
  cases h <;> rfl

/-- An input step takes the event and appends it to the trace (44_io.md R163). -/
theorem InputEffect.streams {d : RegIdx} {e : InEvent} {rest : List InEvent} {s t : State} (h : InputEffect d e rest s t) :
    t.input = rest ∧ t.io = s.io ++ [.took e] := by
  cases h <;> exact ⟨rfl, rfl⟩

/-- What a cell reads depends on memory only. -/
theorem State.memRead_congr {s t : State} (h : t.mem = s.mem) (a : Value) : t.memRead a = s.memRead a := by
  simp only [State.memRead, h]

/-! ### The statements -/

/-- Settles O48: from Running by `exec_runState` or a raise, from WaitInput by the three forms of `InputEffect`, and otherwise the
state stays. -/
theorem runStateMovesAsListed : Obligations.RunStateMovesAsListed := by
  intro s t h
  obtain ⟨hrun, i, hfetch, hexec⟩ | ⟨hrun, pc, f, -, rfl⟩ | ⟨d, e, rest, hwait, hinput, heffect⟩ | ⟨hrun, rfl⟩ := step_kinds h
  · refine ⟨fun _ => ?_, fun d e hwait => by simp [hrun] at hwait, fun hstop => by simp [hrun] at hstop⟩
    obtain hsame | hfault | ⟨hhalt, rfl⟩ | ⟨d, hwait, rfl⟩ := exec_runState hexec
    · exact .inl (hsame.trans hrun)
    · exact .inr (.inl hfault)
    · exact .inr (.inr (.inl ⟨hhalt, hfetch⟩))
    · exact .inr (.inr (.inr ⟨d, hwait, hfetch⟩))
  · exact ⟨fun _ => .inr (.inl rfl), fun d e hwait => by simp [hrun] at hwait, fun hstop => by simp [hrun] at hstop⟩
  · refine ⟨fun hrun => by simp [hwait] at hrun, fun d' e' hwait' => ?_, fun hstop => by simp [hwait] at hstop⟩
    obtain ⟨rfl, -⟩ : d = d' ∧ false = e' := by simpa [hwait] using hwait'
    cases heffect with
    | waits eofTaken hr heof => exact .inl ⟨eofTaken, hr⟩
    | raises h => exact .inr (.inl rfl)
    | stores v he hv =>
      refine .inr (.inr ⟨rfl, v, by rw [hinput, he]; rfl, hv, ?_⟩)
      exact (toNat_reg_setReg s d d (Nat.mod_lt _ (by decide))).trans (if_pos rfl)
  · exact ⟨fun hrun' => absurd hrun' hrun, fun d e hwait => .inl ⟨e, hwait⟩, fun _ => rfl⟩

/-- Settles O49: from Running the step is a raise by `raised_of_step`; from WaitInput it is the faulting form of `InputEffect`. -/
theorem faultsArePrecise : Obligations.FaultsArePrecise := by
  intro s t h hfault hs
  by_cases hrun : s.runState = .running
  · obtain ⟨pc, f, hipc, rfl⟩ := raised_of_step h hrun hfault
    exact ⟨fun _ => rfl, rfl, rfl, rfl, fun _ => ⟨rfl, rfl, hipc⟩, fun hnot => absurd hrun hnot⟩
  · obtain ⟨hrun', -⟩ | ⟨hrun', -⟩ | ⟨d, e, rest, hwait, hinput, heffect⟩ | ⟨-, rfl⟩ := step_kinds h
    · exact absurd hrun' hrun
    · exact absurd hrun' hrun
    · cases heffect with
      | waits eofTaken hr heof => cases hr.symm.trans hfault
      | stores v he hv => cases hfault
      | raises h => exact ⟨fun _ => rfl, rfl, rfl, rfl, fun hrun' => absurd hrun' hrun, fun _ => ⟨rfl, e, hinput, rfl⟩⟩
    · exact absurd hfault hs

/-- Settles O50: exec by `exec_memRead`; out of Running a step takes an input event or does nothing. -/
theorem onlyWmemChangesMemory : Obligations.OnlyWmemChangesMemory := by
  refine ⟨fun i s t a h hchanged => ?exec, fun s t a hrun h => ?step⟩
  case exec =>
    obtain hsame | ⟨addr, src, v, hi, haddr, -⟩ := exec_memRead h a
    · exact absurd hsame hchanged
    · exact ⟨addr, src, hi, haddr⟩
  case step =>
    obtain ⟨hrun', -⟩ | ⟨hrun', -⟩ | ⟨d, e, rest, -, -, heffect⟩ | ⟨-, rfl⟩ := step_kinds h
    · exact absurd hrun' hrun
    · exact absurd hrun' hrun
    · exact State.memRead_congr heffect.mem a
    · rfl

/-- Settles O51: a step that changes a cell runs a wmem, which stores a 15-bit value. -/
theorem changedCellsHoldValues : Obligations.ChangedCellsHoldValues := by
  intro s t a h hchanged
  obtain ⟨-, i, -, hexec⟩ | ⟨-, pc, f, -, rfl⟩ | ⟨d, e, rest, -, -, heffect⟩ | ⟨-, rfl⟩ := step_kinds h
  · obtain hsame | ⟨addr, src, v, -, -, hread⟩ := exec_memRead hexec a
    · exact absurd hsame hchanged
    · rw [hread, toNat_toCell]
      omega
  · exact absurd rfl hchanged
  · exact absurd (State.memRead_congr heffect.mem a) hchanged
  · exact absurd rfl hchanged

/-- Settles O52: `exec_reg`, for a register that changed. -/
theorem onlyTheDestinationRegisterChanges : Obligations.OnlyTheDestinationRegisterChanges :=
  fun _ _ _ r h hchanged => (exec_reg h r).resolve_left hchanged

/-- Settles O53: `exec_stack`, for a stack that changed. -/
theorem onlyStackInstructionsTouchTheStack : Obligations.OnlyStackInstructionsTouchTheStack :=
  fun _ _ _ h hchanged => (exec_stack h).resolve_left hchanged

/-- Settles O54: an instruction by `exec_streams`, an input event by `InputEffect.streams`; a raise and a core with no step leave
both streams. -/
theorem ioTraceOnlyGrows : Obligations.IoTraceOnlyGrows := by
  intro s t h
  obtain ⟨hrun, i, hfetch, hexec⟩ | ⟨-, pc, f, -, rfl⟩ | ⟨d, e, rest, hwait, hinput, heffect⟩ | ⟨-, rfl⟩ := step_kinds h
  · obtain ⟨hinput, hio | ⟨ch, v, rfl, hv, hio⟩⟩ := exec_streams hexec
    · exact .inl ⟨hio, hinput⟩
    · exact .inr (.inl ⟨hrun, hinput, ch, v, hfetch, hv, hio⟩)
  · exact .inl ⟨rfl, rfl⟩
  · obtain ⟨hrest, hio⟩ := heffect.streams
    exact .inr (.inr ⟨by simp [hwait], e, by rw [hinput, hrest], hio⟩)
  · exact .inl ⟨rfl, rfl⟩

/-- Settles O55: no part of a step changes the parameters. -/
theorem stepKeepsTheParameters : Obligations.StepKeepsTheParameters := by
  intro s t h
  obtain ⟨-, i, -, hexec⟩ | ⟨-, pc, f, -, rfl⟩ | ⟨d, e, rest, -, -, heffect⟩ | ⟨-, rfl⟩ := step_kinds h
  · exact exec_cfg hexec
  · rfl
  · exact heffect.cfg
  · rfl

end Sys2Proof.Machine
end

section
/-! PROOFS. ResolveValue and ResolveRegister on every operand cell (30_encoding.md section 2). -/

namespace Sys2Proof.Machine

section FetchOperand

variable {α : Type} {cur : Current} {o : Operand} {use : State → Operand → Option α} {s : State}

/-- A legal operand inside memory: its result, one cell consumed (30_encoding.md R77). -/
theorem fetchOperand_of_some {a : α} (hpc : s.pc.toNat ≤ 32767) (h : use s o = some a) :
    fetchOperand cur o use s = .ok a s.advance := by
  have hin : s.pastEnd = false := decide_eq_false (Nat.not_lt.2 hpc)
  simp [fetchOperand, hin, h]

/-- An illegal operand inside memory: InvalidOperand, its cell consumed (60_exceptions.md R182). -/
theorem fetchOperand_of_none (hpc : s.pc.toNat ≤ 32767) (h : use s o = none) :
    fetchOperand cur o use s = .raised (raise .invalidOperand cur s.pc o.encode 0 s.advance) := by
  have hin : s.pastEnd = false := decide_eq_false (Nat.not_lt.2 hpc)
  simp [fetchOperand, hin, h]

/-- Past the last cell: AddressOutOfRange, nothing consumed (60_exceptions.md R184). -/
theorem fetchOperand_of_pastEnd (hpc : 32768 ≤ s.pc.toNat) :
    fetchOperand cur o use s = .raised (raise .addressOutOfRange cur s.pc 0 0 s) := by
  have hpast : s.pastEnd = true := decide_eq_true hpc
  simp [fetchOperand, hpast]

end FetchOperand

/-- Settles O56: the result of each class by O8, and the fetch by its three rules, the fault record holding the cell itself since
`encode_classify` gives it back. -/
theorem operandCellsResolveByClass : Obligations.OperandCellsResolveByClass := by
  intro cur s raw
  obtain ⟨hlit, hreg, hinvalid⟩ := operandCellsFallInThreeClasses raw
  refine ⟨fun hraw => ?lit, fun hlow hhigh => ?reg, fun hraw => ?invalid, fun hpc => ?inside, fun hpc => ?pastEnd⟩
  case lit =>
    obtain ⟨v, hv, hnat⟩ := hlit hraw
    exact ⟨v, hnat, by rw [hv]; rfl, by rw [hv]; rfl⟩
  case reg =>
    obtain ⟨i, hi, hnat⟩ := hreg hlow hhigh
    exact ⟨i, hnat, by rw [hi]; rfl, by rw [hi]; rfl⟩
  case invalid =>
    rw [hinvalid hraw]
    exact ⟨rfl, rfl⟩
  case inside =>
    have hcell := encode_classify raw
    refine ⟨fun v hv => fetchOperand_of_some hpc hv, fun hnone => ?_, fun i hi => fetchOperand_of_some hpc hi, fun hnone => ?_⟩
    · rw [resolveValue, fetchOperand_of_none hpc hnone, hcell]; rfl
    · rw [resolveRegister, fetchOperand_of_none hpc hnone, hcell]; rfl
  case pastEnd => exact ⟨fetchOperand_of_pastEnd hpc, fetchOperand_of_pastEnd hpc⟩

end Sys2Proof.Machine
end
